-- ==== Sys2Proof/Word.lean ====
section
/-! DEFINITION. Words of the FFT2 block: the 32-bit bus word (R9, R100), the byte lane (R104) and the
complex entry (R12). -/

namespace Sys2Proof

/-- A 32-bit bus word; the `bits32` of rule R12. -/
abbrev Word := BitVec 32

/-- One byte lane of a bus word (rule R104). -/
abbrev Byte := BitVec 8

/-- A complex entry, a pair of binary32 patterns: the `cplx` of rule R12. -/
structure Cplx where
  re : Word
  im : Word
  deriving DecidableEq, Repr

end Sys2Proof
end

