-- ==== Sys2Proof/Syntax.lean ====
section
/-! DEFINITION. The command set FFT2-CMD version 1 (R2): one constructor per row of the opcode map
(R154). -/

namespace Sys2Proof

/-- The six commands. Every data operand is the whole buffer (R51), so the one operand a command word
carries is BFLY's stage exponent, the 4-bit field STG (R151, R152). -/
inductive Instr where
  /-- `bitrev`, R250. -/
  | bitrev
  /-- `bfly e`, R280. -/
  | bfly (e : BitVec 4)
  /-- `norm`, R320. -/
  | norm
  /-- `conj`, R325. -/
  | conj
  /-- `fwd`, R360. -/
  | fwd
  /-- `inv`, R365. -/
  | inv
  deriving DecidableEq, Repr

end Sys2Proof
end

