-- ==== Sys2Proof/WellFormed.lean ====
section
/-! DEFINITION. Well-formed commands: the bound on BFLY's stage exponent (R152, R153). -/

namespace Sys2Proof

/-- A command is well formed for the current log2 size `L` when a BFLY's exponent `e` has `1 ≤ e ≤ L`
(R153); every other command is well formed at every size. -/
def Instr.wellFormed (L : Nat) : Instr → Bool
  | .bitrev => true
  | .bfly e => decide (1 ≤ e.toNat) && decide (e.toNat ≤ L)
  | .norm => true
  | .conj => true
  | .fwd => true
  | .inv => true

end Sys2Proof
end

