-- ==== Sys2Proof/Decode.lean ====
section
/-! DEFINITION. Decoding and encoding of command words (R150-R157), and the legality predicate of R153. -/

namespace Sys2Proof

/-- Why a word selects no row of the opcode map (R155). The machine answers each with ILLEGAL_CMD. -/
inductive DecodeError where
  /-- RSV0 (bits 7:4) or RSV1 (bits 31:12) is not 0 (R151). -/
  | reservedBits
  /-- OP is 0x0 or 0x7..0xF (R155). -/
  | unknownOp
  /-- STG is not 0 and OP is not BFLY (R151). -/
  | stageNotAllowed
  /-- A byte string that is not exactly one 32-bit word (R150, R157). -/
  | notOneWord
  deriving DecidableEq, Repr

/-- Field OP, bits 3:0 (R151). -/
def fieldOp (w : Word) : BitVec 4 := w.extractLsb' 0 4

/-- Field RSV0, bits 7:4 (R151). -/
def fieldRsv0 (w : Word) : BitVec 4 := w.extractLsb' 4 4

/-- Field STG, bits 11:8 (R151). -/
def fieldStg (w : Word) : BitVec 4 := w.extractLsb' 8 4

/-- Field RSV1, bits 31:12 (R151). -/
def fieldRsv1 (w : Word) : BitVec 20 := w.extractLsb' 12 20

/-- The decoder of R154-R156: every word is one row of the opcode map or is rejected by name. It reads
the word alone; the bound of BFLY's exponent by SIZE.L is `Instr.wellFormed`. -/
def decodeWord (w : Word) : Except DecodeError Instr :=
  if fieldRsv0 w ≠ 0#4 ∨ fieldRsv1 w ≠ 0#20 then .error .reservedBits
  else if fieldOp w = 2#4 then .ok (.bfly (fieldStg w))
  else if fieldStg w ≠ 0#4 then .error .stageNotAllowed
  else if fieldOp w = 1#4 then .ok .bitrev
  else if fieldOp w = 3#4 then .ok .norm
  else if fieldOp w = 4#4 then .ok .conj
  else if fieldOp w = 5#4 then .ok .fwd
  else if fieldOp w = 6#4 then .ok .inv
  else .error .unknownOp

/-- The four byte lanes of a word, lowest offset first: the byte at offset `i` is bits `[8i+7:8i]`
(R104). -/
def wordBytes (w : Word) : List Byte :=
  [w.extractLsb' 0 8, w.extractLsb' 8 8, w.extractLsb' 16 8, w.extractLsb' 24 8]

/-- The word whose byte lanes are `b0` (lowest offset) to `b3` (R104). -/
def wordOfBytes (b0 b1 b2 b3 : Byte) : Word := b3 ++ b2 ++ b1 ++ b0

/-- Decoding of a byte string: one command is exactly one 32-bit word (R157), little-endian (R104). -/
def decodeBytes : List Byte → Except DecodeError Instr
  | [b0, b1, b2, b3] => decodeWord (wordOfBytes b0 b1 b2 b3)
  | _ => .error .notOneWord

/-- The word of the opcode map (R154) for each command. -/
def encode : Instr → Word
  | .bitrev => 0x00000001#32
  | .bfly e => 0#20 ++ e ++ 0#4 ++ 2#4
  | .norm => 0x00000003#32
  | .conj => 0x00000004#32
  | .fwd => 0x00000005#32
  | .inv => 0x00000006#32

/-- `legal(w, L)` as R153 writes it. -/
def legalWord (w : Word) (L : Nat) : Bool :=
  decide (fieldRsv1 w = 0#20) && decide (fieldRsv0 w = 0#4) &&
    ((decide (fieldOp w ∈ [1#4, 3#4, 4#4, 5#4, 6#4]) && decide (fieldStg w = 0#4)) ||
      (decide (fieldOp w = 2#4) && decide (1 ≤ (fieldStg w).toNat) && decide ((fieldStg w).toNat ≤ L)))

/-- The command word whose low `nbits` bits are those of `w` and whose other bits are 0. -/
def tableWord (nbits w : Nat) : Word := BitVec.ofNat 32 (w % 2 ^ nbits)

/-- What the decoder reads from an opcode-table word: its four byte lanes in order, decoded. A row wider
than one command word does not exist (R157). -/
def decodeTableWord (nbits w : Nat) : Option Instr :=
  if nbits ≤ 32 then (decodeBytes (wordBytes (tableWord nbits w))).toOption else none

end Sys2Proof
end

