-- ==== Sys2Proof/Config.lean ====
section
/-! DEFINITION. Constants of an instance and the open values of the spec. LMAX itself is a field of State
(State.lmax, an instance constant no step writes), so that every claim over all states covers every LMAX;
only the value that the default instance takes stands here. -/

namespace Sys2Proof

/-- LMAX of the spec's default instance (R7). -/
def Config.defaultLmax : BitVec 4 := 12#4

/-- The ID register, ASCII "FFT2" (R62). -/
def Config.idWord : Word := 0x46465432#32

/-- DATA_INIT, the parameter of R10 and R451, as a FREE VALUE: the byte at bus offset `a` of the DATA window
that nothing has written since the `n`-th reset. It has no body, so nothing can be proved of its value, and it
may differ from reset to reset (log entry 2). -/
opaque Config.dataInit (n a : Nat) : Byte

end Sys2Proof
end

