-- ==== Sys2Proof/Machine/State.lean ====
section
/-! DEFINITION. Transactions, agents' events, the state of the block (R50) and its reset value (R450). -/

namespace Sys2Proof.Machine

/-- The size of a bus transaction in bytes, 1, 2 or 4 (R100). -/
inductive Size where
  | one
  | two
  | four
  deriving DecidableEq, Repr

/-- The direction of a transaction; only a write carries data (R100). -/
inductive BusOp where
  | read
  | write (wdata : Word)
  deriving DecidableEq, Repr

/-- One transaction on the slave port (R100). -/
structure Txn where
  offset : BitVec 18
  size   : Size
  op     : BusOp
  deriving DecidableEq, Repr

/-- The three kinds of step of R101. -/
inductive Event where
  /-- one bus transaction of the host -/
  | host (t : Txn)
  /-- one pass of the current command, enabled only while BUSY = 1 -/
  | engine
  /-- `rst_n` asserted -/
  | reset
  deriving DecidableEq, Repr

/-- The error codes 1 to 5 of R400; code 0 is `none` of `Option ErrCode`, and 6 to 15 are never produced. -/
inductive ErrCode where
  | invalidSize
  | sizeMismatch
  | illegalCmd
  | busy
  | busAccess
  deriving DecidableEq, Repr

/-- One whole-buffer pass of the engine (R14, R351). -/
inductive Pass where
  | rev
  | bf (e : Nat)
  | norm
  | conj
  deriving DecidableEq, Repr

/-- The data RAM as the bytes written since reset, keyed by bus offset (0x10000 + 8k for entry k, R103),
offsets strictly rising. An offset that is not listed has not been written since reset and reads as the free
value `Config.dataInit` (R451; log entry 2). -/
abbrev Memory := List Host.Cell

/-- Everything the block holds. The first group is the tuple of R50 with LMAX, the second the model's own. -/
structure State where
  /-- CAPS.LMAX, the instance's largest log2 size (R7, R63): a constant of the instance, written by no step. -/
  lmax     : BitVec 4
  /-- CTRL.DONE_IE (R70). -/
  doneIe   : Bool
  /-- CTRL.ERR_IE (R70). -/
  errIe    : Bool
  /-- SIZE.L, the current log2 size (R64). -/
  sizeL    : BitVec 4
  /-- LASTCMD, what a read of CMD returns (R65). -/
  lastCmd  : Word
  /-- STATUS.DONE (R66). -/
  done     : Bool
  /-- ERR.CODE (R67, R400); `none` is code 0. -/
  errCode  : Option ErrCode
  /-- ERR.MULTI (R67). -/
  errMulti : Bool
  /-- ERRADDR (R68). -/
  errAddr  : Word
  /-- ERRDATA (R69). -/
  errData  : Word
  /-- BUSY (R71). -/
  busy     : Bool
  /-- PASS, the number of passes of SEQ completed (R71). -/
  pass     : BitVec 5
  /-- SEQ, the passes of the current or last accepted command (R71). -/
  seq      : List Pass
  /-- DATA, the data RAM (R52). -/
  data     : Memory
  /-- The model's own: resets taken so far, which index the free values of DATA (R451). -/
  resets   : Nat
  /-- The model's own: `rdata` of the slave port (R100), the value returned by the read that the last step
  served; `none` when the last step served no read. -/
  rdata    : Option Word
  /-- The model's own: which agent steps next (R101), first event first. -/
  inputs   : List Event
  deriving DecidableEq, Repr

/-- How a run goes wrong. -/
inductive Fault where
  /-- Raised by the engine step (R352) alone, when BUSY = 1 and SEQ has no pass number PASS. R71 rules such a
  state out (PASS < |SEQ| while BUSY = 1), so no run from reset raises it. Safe: the machine stops. -/
  | noPassLeft
  deriving DecidableEq, Repr

/-- Why a command has no meaning. -/
inductive Refusal where
  /-- Raised by the dispatcher for an instruction without a meaning. No arm raises it. Safe: the machine
  stops. -/
  | notModelled (mnemonic : String)
  deriving DecidableEq, Repr

/-- The block right after reset (R450), in the default instance (R7): DATA holds nothing written. -/
def State.reset : State where
  lmax := Config.defaultLmax
  doneIe := false
  errIe := false
  sizeL := 1#4
  lastCmd := 0#32
  done := false
  errCode := none
  errMulti := false
  errAddr := 0#32
  errData := 0#32
  busy := false
  pass := 0#5
  seq := []
  data := []
  resets := 0
  rdata := none
  inputs := []

end Sys2Proof.Machine
end

