-- ==== Sys2Proof/Machine/Ops.lean ====
section
/-! DEFINITION. The named operations: bytes and words of the data RAM, raising an error and clearing it
(R401, R404), acceptance and completion of a command (R350, R353), the reset step (R450). -/

namespace Sys2Proof.Machine

/-! ### Memory -/

/-- First offset of the DATA window (R103). -/
def dataBase : Nat := 0x10000

/-- The canonical form: offsets strictly rising, each in the DATA window (R103). An unlisted offset reads as
an unknown free value, so no listed byte is ever redundant. -/
def Memory.wf (m : Memory) : Bool :=
  decide (m.Pairwise (fun c d => c.1 < d.1)) && m.all (fun c => decide (dataBase ≤ c.1 ∧ c.1 < 0x20000))

/-- The byte written at offset `a` since reset, if any. -/
def Memory.lookup : Memory → Nat → Option Byte
  | [], _ => none
  | c :: m, a => if c.1 = a then some c.2 else Memory.lookup m a

/-- Write one byte, keeping the canonical form. -/
def Memory.writeByte : Memory → Nat → Byte → Memory
  | [], a, b => [(a, b)]
  | c :: m, a, b =>
    if a < c.1 then (a, b) :: c :: m
    else if c.1 = a then (a, b) :: m
    else c :: Memory.writeByte m a b

/-- Write the four byte lanes of a word at offset `a`, least significant lowest (R104). -/
def Memory.writeWord (m : Memory) (a : Nat) (w : Word) : Memory :=
  (((m.writeByte a (w.extractLsb' 0 8)).writeByte (a + 1) (w.extractLsb' 8 8)).writeByte (a + 2)
    (w.extractLsb' 16 8)).writeByte (a + 3) (w.extractLsb' 24 8)

/-- The byte of the data RAM at bus offset `a`: what was last written since reset, else the free value of
R451. -/
def State.readByte (s : State) (a : Nat) : Byte :=
  match s.data.lookup a with
  | some b => b
  | none => Config.dataInit s.resets a

/-- The word of the data RAM at bus offset `a` (R104). -/
def State.readWord (s : State) (a : Nat) : Word :=
  wordOfBytes (s.readByte a) (s.readByte (a + 1)) (s.readByte (a + 2)) (s.readByte (a + 3))

/-- Store a word of the data RAM at bus offset `a` (R104). -/
def State.storeWord (a : Nat) (w : Word) (s : State) : State :=
  { s with data := s.data.writeWord a w }

/-! ### Taking an error and clearing it: the block's form of an exception and its return (R406, R407) -/

/-- The log2 of a transaction's size in bytes, the field SZ of ERRADDR (R68). -/
def Size.log2 : Size → BitVec 2
  | .one => 0#2
  | .two => 1#2
  | .four => 2#2

/-- Whether a transaction is a write. -/
def Txn.isWrite (t : Txn) : Bool :=
  match t.op with
  | .read => false
  | .write _ => true

/-- The write data of a transaction, 0 for a read (R401). -/
def Txn.wdata (t : Txn) : Word :=
  match t.op with
  | .read => 0#32
  | .write w => w

/-- The ERRADDR image of a transaction, `{write, 00000, log2(size), 000000, offset}` (R401). -/
def Txn.image (t : Txn) : Word :=
  BitVec.ofBool t.isWrite ++ 0#5 ++ t.size.log2 ++ 0#6 ++ t.offset

/-- `raise E(txn)` of R401: the first error since the last clear is recorded with its transaction, a
further one only sets MULTI. -/
def raise (e : ErrCode) (t : Txn) (s : State) : State :=
  match s.errCode with
  | none => { s with errCode := some e, errAddr := t.image, errData := t.wdata }
  | some _ => { s with errMulti := true }

/-- A transaction that raises `e`: the error is recorded, nothing else changes, and a read returns
0x00000000 (R401). -/
def refuse (e : ErrCode) (t : Txn) (s : State) : State :=
  match t.op with
  | .read => { raise e t s with rdata := some 0#32 }
  | .write _ => raise e t s

/-- The effect of an error-free write to ERR (R404), the block's return from an error (R407). -/
def clearErr (s : State) : State :=
  { s with errCode := none, errMulti := false, errAddr := 0#32, errData := 0#32 }

/-! ### The sequencer's registers -/

/-- Acceptance of command word `w` with the pass sequence `ps` (R350). -/
def accept (w : Word) (ps : List Pass) (s : State) : State :=
  { s with lastCmd := w, seq := ps, pass := 0#5, busy := true, done := false }

/-- Completion of the last pass (R353). -/
def complete (s : State) : State :=
  { s with busy := false, done := true }

/-- PASS <- PASS + 1, and completion in the same step when it reaches |SEQ| (R352). -/
def countPass (s : State) : State :=
  let s' := { s with pass := s.pass + 1#5 }
  if s'.pass.toNat = s'.seq.length then complete s' else s'

/-- The reset step of R450, for any state: every register takes its reset value, DATA becomes unspecified
(R451), and the constants of the instance stay (R453). -/
def resetStep (s : State) : State :=
  { State.reset with lmax := s.lmax, resets := s.resets + 1, inputs := s.inputs }

/-! ### Issuing a command (R350) -/

/-- The offset of CMD (R61). -/
def cmdOffset : BitVec 18 := 0x010#18

/-- The transaction that issues command word `w`: one 4-byte write to CMD (R150). -/
def cmdWrite (w : Word) : Txn := ⟨cmdOffset, .four, .write w⟩

/-- The error of a 4-byte CMD write of `w`, if any: BUSY before ILLEGAL_CMD (R350, R402). -/
def issueError (w : Word) (s : State) : Option ErrCode :=
  if s.busy then some .busy
  else if legalWord w s.sizeL.toNat then none
  else some .illegalCmd

/-- Issue command `i` with the pass sequence `ps` (R350): refused with an error, or accepted. -/
def issue (i : Instr) (ps : List Pass) (s : State) : State :=
  match issueError (encode i) s with
  | some e => refuse e (cmdWrite (encode i)) s
  | none => accept (encode i) ps s

end Sys2Proof.Machine
end

