-- ==== Sys2Proof/Machine/Operands.lean ====
section
/-! DEFINITION. Operands: the buffer a command works on (R51-R54), a BFLY's stage (R152), and the place a bus
offset names (R103, R112). -/

namespace Sys2Proof.Machine

/-! ### The buffer -/

/-- `N = 2^SIZE.L` (R8, R53). -/
def State.size (s : State) : Nat := 2 ^ s.sizeL.toNat

/-- The bus offset of entry k of DATA (R103). -/
def entryOffset (k : Nat) : Nat := dataBase + 8 * k

/-- `DATA[k]`: `re` at the lower offset, `im` four above (R104). -/
def State.entry (s : State) (k : Nat) : Cplx :=
  ⟨s.readWord (entryOffset k), s.readWord (entryOffset k + 4)⟩

/-- The four listed bytes of a word at offset `a` (R104). -/
def wordCells (a : Nat) (w : Word) : Memory :=
  [(a, w.extractLsb' 0 8), (a + 1, w.extractLsb' 8 8), (a + 2, w.extractLsb' 16 8), (a + 3, w.extractLsb' 24 8)]

/-- The eight listed bytes of entry k. -/
def entryCells (k : Nat) (c : Cplx) : Memory :=
  wordCells (entryOffset k) c.re ++ wordCells (entryOffset k + 4) c.im

/-- The buffer `D` as listed bytes, entries 0..N-1 in order. -/
def bufferCells (N : Nat) (D : Nat → Cplx) : Memory :=
  (List.range N).flatMap (fun k => entryCells k (D k))

/-- Replace the buffer `DATA[0..N-1]` by `D`, all at once, and keep every other byte (R14, R54). -/
def State.storeBuffer (D : Nat → Cplx) (s : State) : State :=
  { s with data := s.data.filter (fun c => decide (c.1 < dataBase)) ++ bufferCells s.size D ++
      s.data.filter (fun c => decide (entryOffset s.size ≤ c.1)) }

/-! ### Stage operands -/

/-- The stage size `s = 1 << e` (R152). -/
def stageSize (e : Nat) : Nat := 1 <<< e

/-- The half-size `h = s >> 1` (R152). -/
def halfSize (e : Nat) : Nat := stageSize e >>> 1

/-! ### Bus operands -/

/-- The two words of an entry; `part` of R107 is `offset[2]`. -/
inductive Part where
  | re
  | im
  deriving DecidableEq, Repr

/-- What a 4-byte aligned offset names (R103, R61). -/
inductive Target where
  | id
  | caps
  | ctrl
  | size
  | cmd
  | status
  | err
  | errAddr
  | errData
  /-- a reserved CSR offset, 0x024-0xFFFF (R112, R120) -/
  | unmapped
  | data (k : Nat) (p : Part)
  | root (k : Nat) (p : Part)
  | rev (k : Nat)
  deriving DecidableEq, Repr

/-- `part = offset[2]`: 0 selects `re`, 1 selects `im` (R107, R111). -/
def partOf (off : BitVec 18) : Part := if off.getLsbD 2 then .im else .re

/-- The register at a CSR offset (R61, R112). -/
def csrTarget (off : Nat) : Target :=
  if off = 0x000 then .id
  else if off = 0x004 then .caps
  else if off = 0x008 then .ctrl
  else if off = 0x00C then .size
  else if off = 0x010 then .cmd
  else if off = 0x014 then .status
  else if off = 0x018 then .err
  else if off = 0x01C then .errAddr
  else if off = 0x020 then .errData
  else .unmapped

/-- The decode of R103: four regions of 64 KiB, entry index by R107, R110 and R111. -/
def target (off : BitVec 18) : Target :=
  if off.toNat < 0x10000 then csrTarget off.toNat
  else if off.toNat < 0x20000 then .data ((off.toNat - 0x10000) >>> 3) (partOf off)
  else if off.toNat < 0x30000 then .root ((off.toNat - 0x20000) >>> 3) (partOf off)
  else .rev ((off.toNat - 0x30000) >>> 2)

/-- One part of an entry. -/
def entryPart (c : Cplx) : Part → Word
  | .re => c.re
  | .im => c.im

/-- The bus offset of one part of entry k of DATA (R103). -/
def partOffset (k : Nat) : Part → Nat
  | .re => entryOffset k
  | .im => entryOffset k + 4

end Sys2Proof.Machine
end

