-- ==== Sys2Proof/Machine/Numerics.lean ====
section
/-! DEFINITION. Binary32 (R200-R210) and complex (R211-R213) arithmetic. Exact values are integers in units of
a power of two: `scaled x` is `value(x)` in units of 2^-149, the product of two such is in units of 2^-298. -/

namespace Sys2Proof.Machine

/-! ### Format and classes (R200, R201) -/

def signOf (x : Word) : Bool := x.getLsbD 31

def expOf (x : Word) : Nat := (x.extractLsb' 23 8).toNat

def fracOf (x : Word) : Nat := (x.extractLsb' 0 23).toNat

def isNaN (x : Word) : Bool := decide (expOf x = 255) && decide (fracOf x ≠ 0)

def isInf (x : Word) : Bool := decide (expOf x = 255) && decide (fracOf x = 0)

def isZero (x : Word) : Bool := decide (expOf x = 0) && decide (fracOf x = 0)

def isFinite (x : Word) : Bool := decide (expOf x ≠ 255)

/-- The magnitude of a finite pattern in units of 2^-149 (R200). -/
def magnitude (x : Word) : Nat :=
  if expOf x = 0 then fracOf x else (2 ^ 23 + fracOf x) * 2 ^ (expOf x - 1)

/-- The exact value of a finite pattern in units of 2^-149 (R200, R201). -/
def scaled (x : Word) : Int :=
  if signOf x then -(magnitude x : Int) else (magnitude x : Int)

/-! ### Rounding (R202) -/

/-- The natural nearest to `num / den`, ties to even. -/
def roundHalfEven (num den : Nat) : Nat :=
  let q := num / den
  let r := num % den
  if 2 * r < den then q
  else if den < 2 * r then q + 1
  else if q % 2 = 0 then q
  else q + 1

/-- Bits 30:0 of RNE(r) for the exact magnitude `r = m / 2^q` (R202). With `E = max(floor(log2 r), -126)` and
`u = E + 126`, the result is the multiple `n` of `2^(E-23)` nearest to `r`; the pattern with exponent field `u+1`
(`u = 0`: 1 or, below 2^23, 0) and that significand is `u * 2^23 + n`, also when `n` rounds up to 2^24. -/
def roundMagnitude (m q : Nat) : Nat :=
  if m = 0 then 0
  else if (2 ^ 128 - 2 ^ 103) * 2 ^ q ≤ m then 0x7F800000
  else
    let u := Nat.log2 m + 126 - q
    u * 2 ^ 23 + roundHalfEven (m * 2 ^ 149) (2 ^ (q + u))

/-- The pattern with sign `neg` and RNE of the magnitude `m / 2^q`; a zero result keeps the sign (R202). -/
def roundSigned (neg : Bool) (m q : Nat) : Word :=
  BitVec.ofBool neg ++ BitVec.ofNat 31 (roundMagnitude m q)

/-- `RNE(r)` for the exact real `r = n / 2^q`; an exact zero gives +0 (R202). -/
def rne (n : Int) (q : Nat) : Word := roundSigned (decide (n < 0)) n.natAbs q

/-! ### Primitives (R203-R206) -/

/-- The one NaN that arithmetic returns (R207). -/
def canonicalNaN : Word := 0x7FC00000#32

/-- `neg(a)`, R206. -/
def fneg (a : Word) : Word := a ^^^ 0x80000000#32

/-- `add(a, b)`, R203. -/
def fadd (a b : Word) : Word :=
  if isNaN a || isNaN b then canonicalNaN
  else if isInf a && isInf b then (if signOf a = signOf b then a else canonicalNaN)
  else if isInf a then a
  else if isInf b then b
  else if scaled a + scaled b = 0 then
    (if a = 0x80000000#32 ∧ b = 0x80000000#32 then 0x80000000#32 else 0x00000000#32)
  else rne (scaled a + scaled b) 149

/-- `sub(a, b)`, R204. -/
def fsub (a b : Word) : Word := fadd a (fneg b)

/-- `mul(a, b)`, R205. -/
def fmul (a b : Word) : Word :=
  if isNaN a || isNaN b then canonicalNaN
  else if isInf a || isInf b then
    (if isZero a || isZero b then canonicalNaN
      else BitVec.ofBool (signOf a ^^ signOf b) ++ 0x7F800000#31)
  else roundSigned (signOf a ^^ signOf b) (magnitude a * magnitude b) 298

/-! ### Complex primitives (R211-R213) -/

def cadd (x y : Cplx) : Cplx := ⟨fadd x.re y.re, fadd x.im y.im⟩

def csub (x y : Cplx) : Cplx := ⟨fsub x.re y.re, fsub x.im y.im⟩

/-- Four rounded products, one rounded difference, one rounded sum, for every twiddle (R212, R213). -/
def cmul (x w : Cplx) : Cplx :=
  ⟨fsub (fmul x.re w.re) (fmul x.im w.im), fadd (fmul x.re w.im) (fmul x.im w.re)⟩

end Sys2Proof.Machine
end

