-- ==== Sys2Proof/Machine/Tables.lean ====
section
/-! DEFINITION. The constant tables: bit reversal (R58), the unitary roots ROM (R55, R56) and the
normalisation constants (R60). -/

namespace Sys2Proof.Machine

/-- `rev_L(k)`: bit b of k becomes bit L-1-b (R58). Each step moves the low bit of `k` to the top. -/
def revBits : Nat → Nat → Nat
  | 0, _ => 0
  | L + 1, k => (k % 2) * 2 ^ L + revBits L (k / 2)

/-! ### The roots ROM

The exact cosine and sine of R55 are computed in fixed point with 64 fractional bits: the angle from 20 decimals of π,
then the Taylor polynomials of degree 20 and 21. The fixed-point values lie within 2^-58 of the exact ones, and no
ROM entry up to N = 2^13 lies that close to a rounding boundary, so their RNE is the RNE of the exact value
(log entry 3). -/

/-- Fractional bits of the fixed-point values. -/
def fixBits : Nat := 64

/-- 1 in fixed point. -/
def fixOne : Nat := 2 ^ fixBits

/-- The first 20 decimals of π, in units of 10^-20. -/
def pi20 : Nat := 314159265358979323846

/-- `1 - (x²/d₁)(1 - (x²/d₂)(1 - ...))` in fixed point, for `sq` the square of x: the Taylor polynomial of cos with
the divisors 1·2, 3·4, ..., and of sin(x)/x with 2·3, 4·5, .... -/
def fixSeries (sq : Nat) (divisors : List Nat) : Nat :=
  divisors.foldr (fun d acc => fixOne - sq * acc / fixOne / d) fixOne

def cosDivisors : List Nat := [2, 12, 30, 56, 90, 132, 182, 240, 306, 380]

def sinDivisors : List Nat := [6, 20, 42, 72, 110, 156, 210, 272, 342, 420]

/-- (cos x, sin x) in fixed point, for x in fixed point with 0 ≤ x ≤ π/4. -/
def fixCosSin (x : Nat) : Nat × Nat :=
  let sq := x * x / fixOne
  (fixSeries sq cosDivisors, x * fixSeries sq sinDivisors / fixOne)

/-- The angle (π/2)·r/2^n in fixed point. -/
def fixAngle (n r : Nat) : Nat := pi20 * r * fixOne / (2 * 10 ^ 20 * 2 ^ n)

/-- (cos θ, sin θ) in fixed point for θ = (π/2)·r/2^n in the first quarter turn, by the complement above π/4. -/
def quarterCosSin (n r : Nat) : Nat × Nat :=
  if 2 * r ≤ 2 ^ n then fixCosSin (fixAngle n r)
  else ((fixCosSin (fixAngle n (2 ^ n - r))).2, (fixCosSin (fixAngle n (2 ^ n - r))).1)

/-- (cos θ, sin θ) in fixed point for θ = 2πj/2^n, 0 ≤ j < 2^n: quarter turn `4j / 2^n`, rest `4j mod 2^n`. The
multiples of π/2 are exact. -/
def turnCosSin (n j : Nat) : Int × Int :=
  let cs := quarterCosSin n (4 * j % 2 ^ n)
  match 4 * j / 2 ^ n with
  | 0 => ((cs.1 : Int), (cs.2 : Int))
  | 1 => (-(cs.2 : Int), (cs.1 : Int))
  | 2 => (-(cs.1 : Int), -(cs.2 : Int))
  | _ => ((cs.2 : Int), -(cs.1 : Int))

/-- Entry `j` of the root ROM with 2^n entries: `(RNE(cos(2πj/2^n)), RNE(sin(2πj/2^n)))` (R55). -/
def romEntry (n j : Nat) : Cplx :=
  ⟨rne (turnCosSin n j).1 fixBits, rne (turnCosSin n j).2 fixBits⟩

/-- `ROOT(k) = ROM[k · (NMAX/N)]`, for an instance with LMAX = `lmax` at log2 size `L` (R56). -/
def root (lmax L k : Nat) : Cplx := romEntry lmax (k * (2 ^ lmax / 2 ^ L))

/-- `NORM_K[L] = RNE(2^(-L/2))`: 2^(-L/2) for even L, 2^(-(L-1)/2) · RNE(1/√2) for odd L (R60). The exponent
field is 127 - L/2 or 126 - (L-1)/2. -/
def normK (L : Nat) : Word :=
  if L % 2 = 0 then BitVec.ofNat 32 ((127 - L / 2) * 2 ^ 23)
  else BitVec.ofNat 32 ((126 - L / 2) * 2 ^ 23 + 0x3504F3)

end Sys2Proof.Machine
end

