-- ==== Sys2Proof/Machine/Butterfly.lean ====
section
/-! DEFINITION. BFLY (R280): its pass and its meaning. -/

namespace Sys2Proof.Machine

/-- The pass function BF(e) in the per-output form of R282, with `s = 2^e` and `h = s/2`: entry `i` is the sum or
the difference of its pair (u, v), every read from the buffer before the pass. -/
def bfPass (lmax L e : Nat) (D : Nat → Cplx) : Nat → Cplx := fun i =>
  let k := i % halfSize e
  let u := i / stageSize e * stageSize e + k
  let v := u + halfSize e
  let t := cmul (D v) (root lmax L (2 ^ L / stageSize e * k))
  if i % stageSize e < halfSize e then cadd (D u) t else csub (D u) t

/-- `passes(BFLY e)` (R351). -/
def bflyPasses (e : BitVec 4) : List Pass := [.bf e.toNat]

/-- BFLY e (R280), issued by R350. -/
def execBfly (e : BitVec 4) (s : State) : Host.Outcome State Fault Refusal :=
  .next (issue (.bfly e) (bflyPasses e) s)

end Sys2Proof.Machine
end

