-- ==== Sys2Proof/Machine/Composite.lean ====
section
/-! DEFINITION. FWD (R360) and INV (R365): their meanings. -/

namespace Sys2Proof.Machine

/-- `BF(1), ..., BF(L)` (R351). -/
def stages (L : Nat) : List Pass := (List.range L).map (fun i => .bf (i + 1))

/-- `passes(FWD, L) = [REV, BF(1), ..., BF(L), NORM]` (R351). -/
def fwdPasses (L : Nat) : List Pass := [.rev] ++ stages L ++ [.norm]

/-- `passes(INV, L) = [CONJ, REV, BF(1), ..., BF(L), NORM, CONJ]` (R351). -/
def invPasses (L : Nat) : List Pass := [.conj, .rev] ++ stages L ++ [.norm, .conj]

/-- FWD (R360), issued by R350. -/
def execFwd (s : State) : Host.Outcome State Fault Refusal := .next (issue .fwd (fwdPasses s.sizeL.toNat) s)

/-- INV (R365), issued by R350. -/
def execInv (s : State) : Host.Outcome State Fault Refusal := .next (issue .inv (invPasses s.sizeL.toNat) s)

end Sys2Proof.Machine
end

