-- ==== Sys2Proof/Machine/Elementwise.lean ====
section
/-! DEFINITION. NORM (R320) and CONJ (R325): their passes and their meanings. -/

namespace Sys2Proof.Machine

/-- The pass function NORM: both parts multiplied by NORM_K[L] (R320). -/
def normPass (L : Nat) (D : Nat → Cplx) : Nat → Cplx := fun k =>
  ⟨fmul (D k).re (normK L), fmul (D k).im (normK L)⟩

/-- The pass function CONJ: the imaginary part negated (R325). -/
def conjPass (D : Nat → Cplx) : Nat → Cplx := fun k => ⟨(D k).re, fneg (D k).im⟩

/-- `passes(NORM)` (R351). -/
def normPasses : List Pass := [.norm]

/-- `passes(CONJ)` (R351). -/
def conjPasses : List Pass := [.conj]

/-- NORM (R320), issued by R350. -/
def execNorm (s : State) : Host.Outcome State Fault Refusal := .next (issue .norm normPasses s)

/-- CONJ (R325), issued by R350. -/
def execConj (s : State) : Host.Outcome State Fault Refusal := .next (issue .conj conjPasses s)

end Sys2Proof.Machine
end

