-- ==== Sys2Proof/Machine/Permutation.lean ====
section
/-! DEFINITION. BITREV (R250): its pass and its meaning. -/

namespace Sys2Proof.Machine

/-- The pass function REV: `REV(D)[k] = D[rev_L(k)]`, entries moved bit for bit (R250). -/
def revPass (L : Nat) (D : Nat → Cplx) : Nat → Cplx := fun k => D (revBits L k)

/-- `passes(BITREV)` (R351). -/
def bitrevPasses : List Pass := [.rev]

/-- BITREV (R250), issued by R350. -/
def execBitrev (s : State) : Host.Outcome State Fault Refusal := .next (issue .bitrev bitrevPasses s)

end Sys2Proof.Machine
end

