-- ==== Sys2Proof/Machine/Dispatch.lean ====
section
/-! DEFINITION. One arm per command. -/

namespace Sys2Proof.Machine

def exec (i : Instr) (s : State) : Host.Outcome State Fault Refusal :=
  match i with
  | .bitrev => Sys2Proof.Machine.execBitrev s
  | .bfly e => Sys2Proof.Machine.execBfly e s
  | .norm => Sys2Proof.Machine.execNorm s
  | .conj => Sys2Proof.Machine.execConj s
  | .fwd => Sys2Proof.Machine.execFwd s
  | .inv => Sys2Proof.Machine.execInv s

end Sys2Proof.Machine
end

