-- ==== Sys2Proof/Machine/Flags.lean ====
section
/-! DEFINITION. The status flags and the images of the control and status registers (R61-R70, R74), and the
`irq` output (R410). The block has no condition codes and no floating-point flags (R74, R209). -/

namespace Sys2Proof.Machine

/-- STATUS.ERRF: 1 exactly when ERR.CODE ≠ 0 (R66). -/
def State.errf (s : State) : Bool := s.errCode.isSome

/-- The code of R400. -/
def ErrCode.code : ErrCode → BitVec 4
  | .invalidSize => 1#4
  | .sizeMismatch => 2#4
  | .illegalCmd => 3#4
  | .busy => 4#4
  | .busAccess => 5#4

/-- ERR.CODE; 0 means none (R67). -/
def State.code (s : State) : BitVec 4 :=
  match s.errCode with
  | none => 0#4
  | some e => e.code

/-- CAPS (R63). -/
def State.capsWord (s : State) : Word := 0#28 ++ s.lmax

/-- CTRL (R70). -/
def State.ctrlWord (s : State) : Word := 0#30 ++ BitVec.ofBool s.errIe ++ BitVec.ofBool s.doneIe

/-- SIZE (R64). -/
def State.sizeWord (s : State) : Word := 0#28 ++ s.sizeL

/-- STATUS (R66): PASS in 12:8, ERRF in 2, DONE in 1, BUSY in 0. -/
def State.statusWord (s : State) : Word :=
  0#19 ++ s.pass ++ 0#5 ++ BitVec.ofBool s.errf ++ BitVec.ofBool s.done ++ BitVec.ofBool s.busy

/-- ERR (R67): MULTI in 8, CODE in 3:0. -/
def State.errWord (s : State) : Word := 0#23 ++ BitVec.ofBool s.errMulti ++ 0#4 ++ s.code

/-- The `irq` level (R410). -/
def State.irq (s : State) : Bool := (s.done && s.doneIe) || (s.errf && s.errIe)

end Sys2Proof.Machine
end

