-- ==== Sys2Proof/Machine/Bus.lean ====
section
/-! DEFINITION. Host transactions: the checks of R402 and the reads and writes of R107-R112. -/

namespace Sys2Proof.Machine

/-- `offset[1:0] ≠ 00` (R105). -/
def Txn.misaligned (t : Txn) : Bool := decide (t.offset.extractLsb' 0 2 ≠ 0#2)

/-- The targets of item 4 of R402, which no write may reach. -/
def Target.readOnly : Target → Bool
  | .id | .caps | .errAddr | .errData | .root _ _ | .rev _ => true
  | .ctrl | .size | .cmd | .status | .err | .unmapped | .data _ _ => false

/-- The transactions that BUSY = 1 refuses: any DATA access, a write to CMD or SIZE (item 5 of R402). -/
def busyGuarded (t : Txn) : Bool :=
  match target t.offset with
  | .data _ _ => true
  | .cmd | .size => t.isWrite
  | .id | .caps | .ctrl | .status | .err | .errAddr | .errData | .unmapped | .root _ _ | .rev _ => false

/-- A window entry with `k ≥ N` (item 6 of R402). -/
def outOfRange (t : Txn) (s : State) : Bool :=
  match target t.offset with
  | .data k _ | .root k _ | .rev k => decide (s.size ≤ k)
  | .id | .caps | .ctrl | .size | .cmd | .status | .err | .errAddr | .errData | .unmapped => false

/-- The value checks of item 7 of R402: the word of a CMD write (R153), the value of a SIZE write (R64). -/
def valueError (t : Txn) (s : State) : Option ErrCode :=
  match target t.offset, t.op with
  | .cmd, .write w => if legalWord w s.sizeL.toNat then none else some .illegalCmd
  | .size, .write w => if w.toNat < 1 ∨ s.lmax.toNat < w.toNat then some .invalidSize else none
  | _, _ => none

/-- The first check of R402 that applies, in the order of that rule; `none` when the transaction takes effect. -/
def firstError (t : Txn) (s : State) : Option ErrCode :=
  if t.size ≠ .four then some .busAccess
  else if t.misaligned then some .busAccess
  else if target t.offset = .unmapped then some .busAccess
  else if t.isWrite && (target t.offset).readOnly then some .busAccess
  else if s.busy && busyGuarded t then some .busy
  else if outOfRange t s then some .sizeMismatch
  else valueError t s

/-- The word an accepted read returns (R62-R70, R108, R110, R111). -/
def readTarget (s : State) : Target → Word
  | .id => Config.idWord
  | .caps => s.capsWord
  | .ctrl => s.ctrlWord
  | .size => s.sizeWord
  | .cmd => s.lastCmd
  | .status => s.statusWord
  | .err => s.errWord
  | .errAddr => s.errAddr
  | .errData => s.errData
  | .data k p => s.readWord (partOffset k p)
  | .root k p => entryPart (root s.lmax.toNat s.sizeL.toNat k) p
  | .rev k => BitVec.ofNat 32 (revBits s.sizeL.toNat k)
  | .unmapped => 0#32

/-- CTRL (R70): bits 1:0 are stored, the others ignored. -/
def writeCtrl (w : Word) (s : State) : State :=
  { s with doneIe := w.getLsbD 0, errIe := w.getLsbD 1 }

/-- SIZE (R64): a legal value is stored. -/
def writeSize (w : Word) (s : State) : State :=
  { s with sizeL := w.extractLsb' 0 4 }

/-- STATUS (R66): writing 1 to bit 1 clears DONE, every other bit is ignored. -/
def writeStatus (w : Word) (s : State) : State :=
  if w.getLsbD 1 then { s with done := false } else s

/-- An accepted write (R64, R66, R67, R70, R109). The targets that no accepted write of this function reaches
change nothing: CMD words that decode are commands (`transact`), and the others are refused by `firstError`. -/
def writeTarget (w : Word) (s : State) : Target → State
  | .ctrl => writeCtrl w s
  | .size => writeSize w s
  | .status => writeStatus w s
  | .err => clearErr s
  | .data k p => s.storeWord (partOffset k p) w
  | .cmd | .id | .caps | .errAddr | .errData | .root _ _ | .rev _ | .unmapped => s

/-- The effect of a transaction that no check refuses. -/
def access (t : Txn) (s : State) : State :=
  match t.op with
  | .read => { s with rdata := some (readTarget s (target t.offset)) }
  | .write w => writeTarget w s (target t.offset)

/-- The command a transaction issues: a 4-byte write to CMD of a word that the decoder reads (R150). -/
def commandOf (t : Txn) : Option Instr :=
  match t.op with
  | .write w => if t.size = .four ∧ t.offset = cmdOffset then (decodeWord w).toOption else none
  | .read => none

/-- One host transaction (R101): a command runs by its meaning; any other transaction is refused by the first
check that applies (R402) or takes effect. -/
def transact (t : Txn) (s : State) : Host.Outcome State Fault Refusal :=
  match commandOf t with
  | some i => exec i s
  | none =>
    match firstError t s with
    | some e => .next (refuse e t s)
    | none => .next (access t s)

end Sys2Proof.Machine
end

