-- ==== Sys2Proof/Machine/Engine.lean ====
section
/-! DEFINITION. The engine step (R352). -/

namespace Sys2Proof.Machine

/-- The pass function of a pass, for an instance with LMAX = `lmax` at log2 size `L` (R351). -/
def applyPass (lmax L : Nat) : Pass → (Nat → Cplx) → Nat → Cplx
  | .rev => revPass L
  | .bf e => bfPass lmax L e
  | .norm => normPass L
  | .conj => conjPass

/-- `D <- P(D)`, the whole pass at once (R14, R352). SIZE cannot change while BUSY = 1, so SIZE.L is the L sampled
at acceptance (R351). -/
def runPass (p : Pass) (s : State) : State :=
  s.storeBuffer (applyPass s.lmax.toNat s.sizeL.toNat p s.entry)

/-- The engine step: one pass of SEQ, PASS counted, completion in the step of the last pass (R352, R353). It is
enabled exactly when BUSY = 1; a turn that the engine is given while BUSY = 0 changes nothing. -/
def engineStep (s : State) : Host.Outcome State Fault Refusal :=
  if s.busy then
    match s.seq[s.pass.toNat]? with
    | some p => .next (countPass (runPass p s))
    | none => .fault .noPassLeft
  else .next s

end Sys2Proof.Machine
end

