-- ==== Sys2Proof/Machine/Agents.lean ====
section
/-! DEFINITION. Which agent steps next (R101), and how a command word is placed as the next transaction. -/

namespace Sys2Proof.Machine

/-- The step of one agent (R101). -/
def runEvent (e : Event) (s : State) : Host.Outcome State Fault Refusal :=
  match e with
  | .host t => transact t s
  | .engine => engineStep s
  | .reset => .next (resetStep s)

/-- The state in which the next event runs: the event is taken off the list, and the read port returns nothing
until a read does. -/
def State.begin (rest : List Event) (s : State) : State :=
  { s with inputs := rest, rdata := none }

/-- One step: the next listed event, or, when none is listed, a turn of the engine. A command therefore completes
once the list has run out, as the fairness of R460 asks. -/
def advance (s : State) : Host.Outcome State Fault Refusal :=
  match s.inputs with
  | e :: rest => runEvent e (s.begin rest)
  | [] => engineStep (s.begin [])

/-- `s` with the CMD write of a command word as its next event, and the block idle so that the write is not refused
as a second command (R350). -/
def placeCommand (w : Word) (s : State) : State :=
  { s with busy := false, inputs := .host (cmdWrite w) :: s.inputs }

end Sys2Proof.Machine
end

