-- ==== Sys2Proof/Machine/Step.lean ====
section
/-! DEFINITION. The step of the block, and the placing of a command word as the next transaction. -/

namespace Sys2Proof.Machine

/-- One step (R101). -/
def step (s : State) : Host.Outcome State Fault Refusal := advance s

/-- `s` with the command word `w` issued by its very next step: the block fetches nothing (R72), so the next host
transaction writes the word to CMD (log entry 5). -/
def State.withFetchWord (s : State) (nbits w : Nat) : State := placeCommand (tableWord nbits w) s

end Sys2Proof.Machine
end

