-- ==== Sys2Proof/Safety.lean ====
section
/-! DEFINITION. The terms claims are stated in: the pass table (R351), the composition of passes (R355), the
invariant of the block, a step that goes on, exact values and rounding (R200, R202). -/

namespace Sys2Proof

/-- `passes(w, L)`, the table of R351, by command. -/
def passes : Instr → Nat → List Machine.Pass
  | .bitrev, _ => [.rev]
  | .bfly e, _ => [.bf e.toNat]
  | .norm, _ => [.norm]
  | .conj, _ => [.conj]
  | .fwd, L => .rev :: (List.range' 1 L).map .bf ++ [.norm]
  | .inv, L => .conj :: .rev :: (List.range' 1 L).map .bf ++ [.norm, .conj]

/-- The composition of a sequence of passes, first pass first (R355). -/
def composePasses (lmax L : Nat) (ps : List Machine.Pass) (D : Nat → Cplx) : Nat → Cplx :=
  ps.foldl (fun D p => Machine.applyPass lmax L p D) D

/-- A step that goes on: neither a fault nor a refusal. -/
def GoesOn (o : Host.Outcome Machine.State Machine.Fault Machine.Refusal) : Prop := ∃ t, o = .next t

/-- The state of SEQ and LASTCMD: nothing was accepted since reset, or the last accepted command `i` was issued at
some size `L` (the present one while it runs), and SEQ is its pass sequence (R65, R71, R350, R351). -/
def SequenceOfLastCommand (s : Machine.State) : Prop :=
  (s.seq = [] ∧ s.lastCmd = 0#32) ∨
    ∃ i L, s.lastCmd = encode i ∧ i.wellFormed L = true ∧ 1 ≤ L ∧ L ≤ s.lmax.toNat ∧ s.seq = passes i L ∧
      (s.busy = true → L = s.sizeL.toNat)

/-- The invariant of the block: what R7, R64, R52, R71, R65, R67 and R68 say of every state it can be in. -/
structure Inv (s : Machine.State) : Prop where
  /-- `1 ≤ LMAX ≤ 13` (R7) -/
  lmax_legal : 1 ≤ s.lmax.toNat ∧ s.lmax.toNat ≤ 13
  /-- `1 ≤ SIZE.L ≤ LMAX` (R64) -/
  size_legal : 1 ≤ s.sizeL.toNat ∧ s.sizeL.toNat ≤ s.lmax.toNat
  /-- the data RAM keeps its canonical form -/
  data_canonical : Machine.Memory.wf s.data = true
  /-- the data RAM has NMAX entries (R52) -/
  data_in_ram : ∀ c ∈ s.data, c.1 < Machine.entryOffset (2 ^ s.lmax.toNat)
  /-- `PASS < |SEQ|` while busy (R71) -/
  pass_busy : s.busy = true → s.pass.toNat < s.seq.length
  /-- `PASS = |SEQ|` while idle (R71) -/
  pass_idle : s.busy = false → s.pass.toNat = s.seq.length
  /-- DONE refers to the last command: it is 0 while that runs (R66, R350) -/
  done_idle : s.busy = true → s.done = false
  /-- SEQ belongs to LASTCMD -/
  seq_last : SequenceOfLastCommand s
  /-- with no error recorded, the whole record is 0 (R404, R450) -/
  record_clear : s.errCode = none → s.errMulti = false ∧ s.errAddr = 0#32 ∧ s.errData = 0#32
  /-- the reserved fields of ERRADDR read as 0 (R68) -/
  addr_reserved : s.errAddr.extractLsb' 18 6 = 0#6 ∧ s.errAddr.extractLsb' 26 5 = 0#5

/-- A 4-byte read at bus offset `off` (R100). -/
def readAt (off : BitVec 18) : Machine.Txn := ⟨off, .four, .read⟩

/-- A 4-byte write at bus offset `off` (R100). -/
def writeAt (off : BitVec 18) (w : Word) : Machine.Txn := ⟨off, .four, .write w⟩

/-- The host script that issues the commands `is` one after the other, giving the engine `n i` turns after command
`i`. -/
def script (n : Instr → Nat) (is : List Instr) : List Machine.Event :=
  is.flatMap (fun i => .host (Machine.cmdWrite (encode i)) :: List.replicate (n i) .engine)

/-- The checks of R402 in the rule's own words, on the numbers of the offset: the error of a transaction, if any. -/
def ruleError (t : Machine.Txn) (s : Machine.State) : Option Machine.ErrCode :=
  let a := t.offset.toNat
  if t.size ≠ .four then some .busAccess
  else if a % 4 ≠ 0 then some .busAccess
  else if 0x020 < a ∧ a < 0x10000 then some .busAccess
  else if t.isWrite = true ∧ (a ∈ [0x000, 0x004, 0x01C, 0x020] ∨ 0x20000 ≤ a) then some .busAccess
  else if s.busy = true ∧ ((0x10000 ≤ a ∧ a < 0x20000) ∨ (t.isWrite = true ∧ a ∈ [0x00C, 0x010])) then some .busy
  else if (0x10000 ≤ a ∧ a < 0x20000 ∧ s.size ≤ (a - 0x10000) / 8) ∨
      (0x20000 ≤ a ∧ a < 0x30000 ∧ s.size ≤ (a - 0x20000) / 8) ∨
      (0x30000 ≤ a ∧ s.size ≤ (a - 0x30000) / 4) then some .sizeMismatch
  else if t.isWrite = true ∧ a = 0x010 ∧ legalWord t.wdata s.sizeL.toNat = false then some .illegalCmd
  else if t.isWrite = true ∧ a = 0x00C ∧ (t.wdata.toNat < 1 ∨ s.lmax.toNat < t.wdata.toNat) then some .invalidSize
  else none

/-- `value(x)` of a finite pattern, as a rational (R200). -/
def value (x : Word) : ℚ := (Machine.scaled x : ℚ) / 2 ^ 149

/-- `x` is RNE(r) for the exact rational `r ≠ 0` (R202): infinity with the sign of `r` from 2^128 - 2^103 on; below,
a finite value nearest to `r`, the one with an even significand where two are nearest, with the sign of `r` where it is
a zero. -/
def IsRounded (r : ℚ) (x : Word) : Prop :=
  if 2 ^ 128 - 2 ^ 103 ≤ |r| then x = (if r < 0 then 0xFF800000#32 else 0x7F800000#32)
  else
    Machine.isFinite x = true ∧
    (∀ y, Machine.isFinite y = true → |value x - r| ≤ |value y - r|) ∧
    (∀ y, Machine.isFinite y = true → |value y - r| = |value x - r| → value y ≠ value x →
      Machine.fracOf x % 2 = 0) ∧
    (value x = 0 → Machine.signOf x = decide (r < 0))

/-- `x` is the RNE of the exact real `r`, `|r| ≤ 1`, at which no two values are nearest: strictly closer than every
other finite value, and +0 for an exact zero (R55, R202). -/
def IsRoundedReal (r : ℝ) (x : Word) : Prop :=
  Machine.isFinite x = true ∧
  (∀ y, Machine.isFinite y = true → value y ≠ value x → |(value x : ℝ) - r| < |(value y : ℝ) - r|) ∧
  (r = 0 → x = 0#32)

end Sys2Proof
end

