-- ==== Sys2Proof/Certificates/Slice0/Obligations.lean ====
section
/-! DEFINITION. The statements for the provers. -/

open Sys2Proof Sys2Proof.Machine

/-! ### Encoding -/

/-- The byte lanes of every command's word decode to that command, as a table word too; a byte string that decodes to a
command is that command's word, lane by lane; a string of another length decodes to nothing (the words of R154, the form of
R157). BFLY stands here with all 16 exponents: that the decoder reads the word alone, and leaves to the issue the bound
1 ≤ e ≤ L by which R155 and R156 call BFLY 0 and BFLY above L illegal, is the model's own split (log entry 10). -/
def Obligations.DecodeAndEncodeAgree : Prop :=
  (∀ i : Instr, decodeBytes (wordBytes (encode i)) = .ok i ∧ decodeTableWord 32 (encode i).toNat = some i) ∧
  (∀ (l : List Byte) (i : Instr), decodeBytes l = .ok i → l = wordBytes (encode i)) ∧
  (∀ l : List Byte, l.length ≠ 4 → decodeBytes l = .error .notOneWord)

/-- R153, R156: the words legal at size `L` are those that decode to a command well formed at `L`. -/
def Obligations.LegalWordsAreTheWellFormedCommands : Prop :=
  ∀ (w : Word) (L : Nat), legalWord w L = true ↔ ∃ i : Instr, decodeWord w = .ok i ∧ i.wellFormed L = true

/-- Words written out from R154, and words that R155 calls illegal with the reason the decoder gives. -/
def Obligations.SpecWordsDecode : Prop :=
  decodeWord 0x00000001#32 = .ok .bitrev ∧ decodeWord 0x00000102#32 = .ok (.bfly 1#4) ∧
  decodeWord 0x00000302#32 = .ok (.bfly 3#4) ∧ decodeWord 0x00000C02#32 = .ok (.bfly 12#4) ∧
  decodeWord 0x00000003#32 = .ok .norm ∧ decodeWord 0x00000004#32 = .ok .conj ∧
  decodeWord 0x00000005#32 = .ok .fwd ∧ decodeWord 0x00000006#32 = .ok .inv ∧
  decodeWord 0x00000000#32 = .error .unknownOp ∧ decodeWord 0x00000007#32 = .error .unknownOp ∧
  decodeWord 0x00000015#32 = .error .reservedBits ∧ decodeWord 0x00001002#32 = .error .reservedBits ∧
  decodeWord 0x00000105#32 = .error .stageNotAllowed

/-! ### Issuing a command -/

/-- R72, R101, R150: the step of a listed CMD write is the meaning of the command that its word decodes to, in the state
with the transaction taken off the list and the read port empty; and so is the step of a placed word. -/
def Obligations.StepRunsTheDecodedCommand : Prop :=
  ∀ (s : State) (w : Word) (i : Instr), decodeWord w = .ok i →
    (∀ rest, s.inputs = .host (cmdWrite w) :: rest → step s = exec i { s with inputs := rest, rdata := none }) ∧
    step (s.withFetchWord 32 w.toNat) = exec i { s with busy := false, rdata := none }

/-- R350: a CMD write of any word is refused with BUSY while a command runs, refused with ILLEGAL_CMD when its word is not
legal at the current size, and otherwise accepted; nothing else changes. -/
def Obligations.CommandIssueFollowsTheRule : Prop :=
  ∀ (w : Word) (s : State),
    (s.busy = true → transact (cmdWrite w) s = .next (raise .busy (cmdWrite w) s)) ∧
    (s.busy = false → legalWord w s.sizeL.toNat = false →
      transact (cmdWrite w) s = .next (raise .illegalCmd (cmdWrite w) s)) ∧
    (s.busy = false → legalWord w s.sizeL.toNat = true → ∃ i : Instr, decodeWord w = .ok i ∧
      transact (cmdWrite w) s = .next { s with
        lastCmd := w, seq := passes i s.sizeL.toNat, pass := 0#5, busy := true, done := false })

/-- R350, R351: each command, issued while the block is idle, is accepted with its word and its pass sequence, and no other
part of the state changes. BFLY asks for `1 ≤ e ≤ L`. -/
def Obligations.EveryCommandIsAccepted : Prop :=
  ∀ s : State, s.busy = false →
    exec .bitrev s = .next { s with
      lastCmd := 0x00000001#32, seq := [.rev], pass := 0#5, busy := true, done := false } ∧
    (∀ e : BitVec 4, 1 ≤ e.toNat → e.toNat ≤ s.sizeL.toNat → exec (.bfly e) s = .next { s with
      lastCmd := 0x00000002#32 ||| (e.setWidth 32 <<< 8), seq := [.bf e.toNat], pass := 0#5, busy := true,
      done := false }) ∧
    exec .norm s = .next { s with
      lastCmd := 0x00000003#32, seq := [.norm], pass := 0#5, busy := true, done := false } ∧
    exec .conj s = .next { s with
      lastCmd := 0x00000004#32, seq := [.conj], pass := 0#5, busy := true, done := false } ∧
    exec .fwd s = .next { s with
      lastCmd := 0x00000005#32, seq := .rev :: (List.range' 1 s.sizeL.toNat).map .bf ++ [.norm],
      pass := 0#5, busy := true, done := false } ∧
    exec .inv s = .next { s with
      lastCmd := 0x00000006#32, seq := .conj :: .rev :: (List.range' 1 s.sizeL.toNat).map .bf ++ [.norm, .conj],
      pass := 0#5, busy := true, done := false }

/-- R153, R350: where a command is turned away. While a command runs each is refused with BUSY; while idle a BFLY whose
exponent is 0 or above L is refused with ILLEGAL_CMD. Only the error record changes. -/
def Obligations.CommandsTurnedAway : Prop :=
  ∀ s : State,
    (∀ i : Instr, s.busy = true → exec i s = .next (raise .busy (cmdWrite (encode i)) s)) ∧
    (∀ e : BitVec 4, s.busy = false → (e.toNat = 0 ∨ s.sizeL.toNat < e.toNat) →
      exec (.bfly e) s = .next (raise .illegalCmd (cmdWrite (encode (.bfly e))) s))

/-! ### The engine -/

/-- R352: a turn of the engine runs the pass SEQ[PASS] on the whole buffer, counts it, and completes the command in the
step of its last pass. REV leaves at k the old entry rev_L(k) (R250, R58), CONJ the old entry with bit 31 of its imaginary part
flipped (R325, R206), NORM both parts times NORM_K[L] (R320), BF(e) its butterfly (R282). No other byte of the data RAM and no other register changes. While idle it changes nothing, which is
the model's reading of a step that is not enabled (log entry 4). -/
def Obligations.EngineStepRunsOnePass : Prop :=
  ∀ s : State,
    (s.busy = false → engineStep s = .next s) ∧
    (∀ p : Pass, s.busy = true → s.seq[s.pass.toNat]? = some p → s.pass.toNat < 31 →
      ∃ t, engineStep s = .next t ∧
        (∀ k, k < s.size → t.entry k = applyPass s.lmax.toNat s.sizeL.toNat p s.entry k) ∧
        (∀ k, k < s.size → t.entry k = match p with
          | .rev => s.entry (revBits s.sizeL.toNat k)
          | .conj => ⟨(s.entry k).re, (s.entry k).im ^^^ 0x80000000#32⟩
          | .norm => ⟨fmul (s.entry k).re (normK s.sizeL.toNat), fmul (s.entry k).im (normK s.sizeL.toNat)⟩
          | .bf e => bfPass s.lmax.toNat s.sizeL.toNat e s.entry k) ∧
        (∀ a, a < dataBase ∨ entryOffset s.size ≤ a → t.readByte a = s.readByte a) ∧
        t.pass.toNat = s.pass.toNat + 1 ∧
        (if s.pass.toNat + 1 = s.seq.length then t.busy = false ∧ t.done = true ∧ (s.doneIe = true → t.irq = true)
          else t.busy = true ∧ t.done = s.done) ∧
        { t with data := s.data, pass := s.pass, busy := s.busy, done := s.done } = s)

/-- R101: a step is one host transaction, one turn of the engine, or the reset step. That the engine also has the turn when
nothing is listed is the model's choice (log entry 4). -/
def Obligations.StepIsOneAgentsStep : Prop :=
  ∀ s : State,
    (∀ t rest, s.inputs = .host t :: rest → step s = transact t { s with inputs := rest, rdata := none }) ∧
    (∀ rest, s.inputs = .engine :: rest → step s = engineStep { s with inputs := rest, rdata := none }) ∧
    (s.inputs = [] → step s = engineStep { s with rdata := none }) ∧
    (∀ rest, s.inputs = .reset :: rest → step s = .next (resetStep { s with inputs := rest }))

/-- R355, R460: every command that is well formed at the current size, issued to an idle block with nothing listed, is
accepted, and after as many steps as it has passes it has completed: the buffer holds the composition of the passes, every
other byte of the data RAM is as before, BUSY = 0, DONE = 1, PASS = |SEQ|, and no other register has changed. -/
def Obligations.EveryCommandRunsToItsResult : Prop :=
  ∀ (i : Instr) (s : State), s.busy = false → i.wellFormed s.sizeL.toNat = true → s.inputs = [] →
    ∃ t u, exec i s = .next t ∧ Host.Core.run core (passes i s.sizeL.toNat).length t = .next u ∧
      (∀ k, k < s.size →
        State.entry u k = composePasses s.lmax.toNat s.sizeL.toNat (passes i s.sizeL.toNat) s.entry k) ∧
      (∀ a, a < dataBase ∨ entryOffset s.size ≤ a → State.readByte u a = s.readByte a) ∧
      State.pass u = BitVec.ofNat 5 (passes i s.sizeL.toNat).length ∧
      { (u : State) with data := s.data, pass := s.pass, rdata := s.rdata } =
        { s with lastCmd := encode i, seq := passes i s.sizeL.toNat, busy := false, done := true }

/-- R355: whatever host transactions come between the passes of an accepted command, the step of its last pass leaves the
composition of its passes, applied to the buffer at acceptance, and completes it. -/
def Obligations.ResultUnderEveryInterleaving : Prop :=
  ∀ (i : Instr) (s : State) (evs : List Event), s.busy = true → s.pass = 0#5 →
    i.wellFormed s.sizeL.toNat = true → s.seq = passes i s.sizeL.toNat → s.inputs = evs ++ [.engine] →
    Event.reset ∉ evs → evs.count .engine + 1 = s.seq.length →
    ∃ u, Host.Core.run core (evs.length + 1) s = .next u ∧
      (∀ k, k < s.size → State.entry u k = composePasses s.lmax.toNat s.sizeL.toNat s.seq s.entry k) ∧
      (∀ a, a < dataBase ∨ entryOffset s.size ≤ a → State.readByte u a = s.readByte a) ∧
      State.busy u = false ∧ State.done u = true ∧ (State.pass u).toNat = s.seq.length

/-- R360: FWD leaves the same buffer, bit for bit, as BITREV, BFLY 1, ..., BFLY L, NORM issued one by one. -/
def Obligations.ForwardEqualsTheStepwiseCommands : Prop :=
  ∀ s : State, s.busy = false →
    let stepwise : List Instr :=
      .bitrev :: (List.range' 1 s.sizeL.toNat).map (fun e => .bfly (BitVec.ofNat 4 e)) ++ [.norm]
    ∃ u v,
      Host.Core.run core (s.sizeL.toNat + 3) { s with inputs := script (fun _ => s.sizeL.toNat + 2) [.fwd] } = .next u ∧
      Host.Core.run core (2 * (s.sizeL.toNat + 2)) { s with inputs := script (fun _ => 1) stepwise } = .next v ∧
      ∀ k, State.entry u k = State.entry v k

/-- R365: INV leaves the same buffer, bit for bit, as CONJ, FWD, CONJ issued one by one. -/
def Obligations.InverseIsConjugatedForward : Prop :=
  ∀ s : State, s.busy = false →
    let turns : Instr → Nat := fun i => (passes i s.sizeL.toNat).length
    ∃ u v,
      Host.Core.run core (s.sizeL.toNat + 5) { s with inputs := script turns [.inv] } = .next u ∧
      Host.Core.run core (s.sizeL.toNat + 7) { s with inputs := script turns [.conj, .fwd, .conj] } = .next v ∧
      ∀ k, State.entry u k = State.entry v k

/-! ### The passes -/

/-- R252: two BITREV commands in a row, issued to an idle block, leave every entry unchanged bit for bit; REV moves entry
rev_L(k) to k, and REV(REV(D))[k] = D[rev_L(rev_L(k))] = D[k]. -/
def Obligations.BitrevTwiceRestores : Prop :=
  (∀ s : State, s.busy = false → ∃ u,
    Host.Core.run core 4 { s with inputs := script (fun _ => 1) [.bitrev, .bitrev] } = .next u ∧
    State.busy u = false ∧ State.done u = true ∧ ∀ k, State.entry u k = s.entry k) ∧
  (∀ (L : Nat) (D : Nat → Cplx) (k : Nat), revPass L D k = D (revBits L k) ∧
    (k < 2 ^ L → revPass L (revPass L D) k = D (revBits L (revBits L k)) ∧ D (revBits L (revBits L k)) = D k))

/-- R326: two CONJ commands in a row, issued to an idle block, leave every entry unchanged bit for bit; CONJ keeps the real part
and negates the imaginary part, CONJ(CONJ(D)) = D for every D, and neg(neg(x)) = x for every pattern, NaNs included. -/
def Obligations.ConjTwiceRestores : Prop :=
  (∀ s : State, s.busy = false → ∃ u,
    Host.Core.run core 4 { s with inputs := script (fun _ => 1) [.conj, .conj] } = .next u ∧
    State.busy u = false ∧ State.done u = true ∧ ∀ k, State.entry u k = s.entry k) ∧
  (∀ (D : Nat → Cplx) (k : Nat), conjPass D k = ⟨(D k).re, (D k).im ^^^ 0x80000000#32⟩) ∧
  (∀ D : Nat → Cplx, conjPass (conjPass D) = D) ∧ (∀ x : Word, fneg (fneg x) = x)

/-- R280: for every block and every pair (u, v) of it, BF(e) puts `D[u] + t` at u and `D[v]`'s place takes `D[u] - t`, with
`t = cmul(D[v], ROOT((N/s)k))`; the pairs lie in the buffer and cover it. -/
def Obligations.ButterflyWritesEveryPair : Prop :=
  ∀ (lmax L e : Nat) (D : Nat → Cplx), 1 ≤ e → e ≤ L →
    (∀ blk k, blk < 2 ^ L / 2 ^ e → k < 2 ^ (e - 1) →
      blk * 2 ^ e + k + 2 ^ (e - 1) < 2 ^ L ∧
      bfPass lmax L e D (blk * 2 ^ e + k) =
        cadd (D (blk * 2 ^ e + k)) (cmul (D (blk * 2 ^ e + k + 2 ^ (e - 1))) (root lmax L (2 ^ L / 2 ^ e * k))) ∧
      bfPass lmax L e D (blk * 2 ^ e + k + 2 ^ (e - 1)) =
        csub (D (blk * 2 ^ e + k)) (cmul (D (blk * 2 ^ e + k + 2 ^ (e - 1))) (root lmax L (2 ^ L / 2 ^ e * k)))) ∧
    (∀ i, i < 2 ^ L → ∃ blk k, blk < 2 ^ L / 2 ^ e ∧ k < 2 ^ (e - 1) ∧
      (i = blk * 2 ^ e + k ∨ i = blk * 2 ^ e + k + 2 ^ (e - 1)))

/-- R320: NORM multiplies both parts of every entry by NORM_K[L]; at every size each part of the result is the part itself where
that is a zero or an infinity, is 0x7FC00000 where it is a NaN, and is finite where it is finite: NORM never overflows. -/
def Obligations.NormCornerCases : Prop :=
  ∀ (L : Nat) (D : Nat → Cplx) (k : Nat), 1 ≤ L → L ≤ 13 →
    normPass L D k = ⟨fmul (D k).re (normK L), fmul (D k).im (normK L)⟩ ∧
    ∀ p : Part, let x := entryPart (D k) p; let y := entryPart (normPass L D k) p
      (isZero x = true → y = x) ∧ (isInf x = true → y = x) ∧ (isNaN x = true → y = 0x7FC00000#32) ∧
      (isFinite x = true → isFinite y = true)

/-! ### Numerics -/

/-- R202 for every exact value of the form `n / 2^q`: the result is the nearest value, ties to even, with infinity from
2^128 - 2^103 on; an exact zero takes the sign asked for. -/
def Obligations.RoundingIsNearestTiesToEven : Prop :=
  (∀ (n : Int) (q : Nat), n ≠ 0 → IsRounded ((n : ℚ) / 2 ^ q) (rne n q)) ∧
  (∀ q : Nat, rne 0 q = 0x00000000#32 ∧ roundSigned false 0 q = 0x00000000#32 ∧
    roundSigned true 0 q = 0x80000000#32)

/-- R203: addition of any two patterns. -/
def Obligations.AdditionFollowsTheRule : Prop :=
  ∀ a b : Word,
    (isNaN a = true ∨ isNaN b = true → fadd a b = 0x7FC00000#32) ∧
    (isInf a = true → isInf b = true → fadd a b = if signOf a = signOf b then a else 0x7FC00000#32) ∧
    (isInf a = true → isFinite b = true → fadd a b = a) ∧
    (isFinite a = true → isInf b = true → fadd a b = b) ∧
    (isFinite a = true → isFinite b = true →
      (value a + value b = 0 →
        fadd a b = if a = 0x80000000#32 ∧ b = 0x80000000#32 then 0x80000000#32 else 0x00000000#32) ∧
      (value a + value b ≠ 0 → IsRounded (value a + value b) (fadd a b)))

/-- R205: multiplication of any two patterns. -/
def Obligations.MultiplicationFollowsTheRule : Prop :=
  ∀ a b : Word,
    (isNaN a = true ∨ isNaN b = true → fmul a b = 0x7FC00000#32) ∧
    (isNaN a = false → isNaN b = false → isInf a = true ∨ isInf b = true →
      fmul a b = if isZero a = true ∨ isZero b = true then 0x7FC00000#32
        else if signOf a = signOf b then 0x7F800000#32 else 0xFF800000#32) ∧
    (isFinite a = true → isFinite b = true →
      (value a * value b = 0 → fmul a b = if signOf a = signOf b then 0x00000000#32 else 0x80000000#32) ∧
      (value a * value b ≠ 0 → IsRounded (value a * value b) (fmul a b)))

/-- R204: subtraction is addition of the negation for every pattern, and the cases the rule lists. -/
def Obligations.SubtractionFollowsTheRule : Prop :=
  (∀ a b : Word, fsub a b = fadd a (fneg b)) ∧
  (∀ x : Word, isFinite x = true → fsub x x = 0x00000000#32) ∧
  fsub 0x80000000#32 0x00000000#32 = 0x80000000#32 ∧ fsub 0x00000000#32 0x00000000#32 = 0x00000000#32 ∧
  fsub 0x7F800000#32 0x7F800000#32 = 0x7FC00000#32

/-- R206: negation flips bit 31 and keeps every other bit, for every pattern. -/
def Obligations.NegationFlipsTheSignBit : Prop :=
  ∀ x : Word, fneg x = x ^^^ 0x80000000#32 ∧ signOf (fneg x) = !signOf x ∧
    (∀ j, j < 31 → (fneg x).getLsbD j = x.getLsbD j)

/-- R207: every NaN that add, sub or mul returns is 0x7FC00000, while neg carries any NaN with its payload and REV
moves entries whole. (The host's moves are DataReadReturnsTheStoredBits and DataWriteStoresItsBits.) -/
def Obligations.ArithmeticNaNIsCanonical : Prop :=
  (∀ a b : Word, isNaN (fadd a b) = true → fadd a b = 0x7FC00000#32) ∧
  (∀ a b : Word, isNaN (fsub a b) = true → fsub a b = 0x7FC00000#32) ∧
  (∀ a b : Word, isNaN (fmul a b) = true → fmul a b = 0x7FC00000#32) ∧
  (∀ x : Word, isNaN (fneg x) = isNaN x ∧ fracOf (fneg x) = fracOf x) ∧
  (∀ (L : Nat) (D : Nat → Cplx) (k : Nat), revPass L D k = D (revBits L k))

/-- R210: add and mul are commutative bit for bit. -/
def Obligations.AdditionAndMultiplicationCommute : Prop :=
  ∀ a b : Word, fadd a b = fadd b a ∧ fmul a b = fmul b a

/-- R208: the sum of two operands below 2^-126 in magnitude is delivered exactly; nothing is flushed. -/
def Obligations.SubnormalSumsAreExact : Prop :=
  ∀ a b : Word, expOf a = 0 → expOf b = 0 →
    isFinite (fadd a b) = true ∧ value (fadd a b) = value a + value b

/-- Exact cases of R214: multiplying by 1 and by +0, and the full complex product with (1, +0). -/
def Obligations.ExactCasesOfMultiplication : Prop :=
  (∀ x : Word, isNaN x = false → fmul x 0x3F800000#32 = x) ∧
  (∀ x : Word, isFinite x = true → fmul x 0x00000000#32 = if signOf x then 0x80000000#32 else 0x00000000#32) ∧
  (∀ x : Cplx, isFinite x.re = true → isFinite x.im = true →
    cmul x ⟨0x3F800000#32, 0x00000000#32⟩ =
      ⟨if x.re = 0x80000000#32 ∧ signOf x.im = true then 0x00000000#32 else x.re,
       if x.im = 0x80000000#32 ∧ signOf x.re = false then 0x00000000#32 else x.im⟩)

/-! ### The tables -/

/-- R58 and R59: bit b of k becomes bit L-1-b; the table is a self-inverse bijection of [0, 2^L) with the listed values. -/
def Obligations.BitReversalTable : Prop :=
  ∀ L : Nat,
    (∀ k, k < 2 ^ L → revBits L k < 2 ^ L ∧ revBits L (revBits L k) = k ∧
      (∀ b, b < L → (revBits L k).testBit (L - 1 - b) = k.testBit b) ∧
      revBits L k = ∑ b ∈ Finset.range L, (k.testBit b).toNat * 2 ^ (L - 1 - b)) ∧
    Set.BijOn (revBits L) (Set.Iio (2 ^ L)) (Set.Iio (2 ^ L)) ∧
    revBits L 0 = 0 ∧ revBits L (2 ^ L - 1) = 2 ^ L - 1 ∧ revBits 1 0 = 0 ∧ revBits 1 1 = 1

/-- R55: every entry of the root ROM of every instance is the correctly rounded cosine and sine of its exact angle, with an
exact zero stored as +0. -/
def Obligations.RootRomIsCorrectlyRounded : Prop :=
  ∀ n j : Nat, 1 ≤ n → n ≤ 13 → j < 2 ^ n →
    IsRoundedReal (Real.cos (2 * Real.pi * j / 2 ^ n)) (romEntry n j).re ∧
    IsRoundedReal (Real.sin (2 * Real.pi * j / 2 ^ n)) (romEntry n j).im

/-- R56 and R281: the root of an entry is the same in every instance that has the size, and a stage's twiddle depends on the
stage alone. -/
def Obligations.RootsDependOnTheAngleAlone : Prop :=
  ∀ lmax L e k : Nat, 1 ≤ e → e ≤ L → L ≤ lmax → k < 2 ^ e →
    root lmax L k = romEntry L k ∧ root lmax L (2 ^ L / 2 ^ e * k) = romEntry e k

/-- R57: the exact roots and the symmetry of the table. -/
def Obligations.RootSymmetries : Prop :=
  ∀ lmax L : Nat, 1 ≤ L → L ≤ lmax → lmax ≤ 13 →
    root lmax L 0 = ⟨0x3F800000#32, 0x00000000#32⟩ ∧
    (2 ≤ L → root lmax L (2 ^ L / 4) = ⟨0x00000000#32, 0x3F800000#32⟩) ∧
    root lmax L (2 ^ L / 2) = ⟨0xBF800000#32, 0x00000000#32⟩ ∧
    (2 ≤ L → root lmax L (3 * 2 ^ L / 4) = ⟨0x00000000#32, 0xBF800000#32⟩) ∧
    (3 ≤ L → root lmax L (2 ^ L / 8) = ⟨0x3F3504F3#32, 0x3F3504F3#32⟩) ∧
    (∀ k, 0 < k → k < 2 ^ L → k ≠ 2 ^ L / 2 →
      root lmax L (2 ^ L - k) = ⟨(root lmax L k).re, fneg (root lmax L k).im⟩)

/-- R60: NORM_K[L] is the correctly rounded 2^(-L/2), and its thirteen values. -/
def Obligations.NormalisationConstants : Prop :=
  (∀ L : Nat, 1 ≤ L → L ≤ 13 → IsRoundedReal ((2 : ℝ) ^ (-(L : ℝ) / 2)) (normK L)) ∧
  (List.range' 1 13).map normK =
    [0x3F3504F3#32, 0x3F000000#32, 0x3EB504F3#32, 0x3E800000#32, 0x3E3504F3#32, 0x3E000000#32, 0x3DB504F3#32,
      0x3D800000#32, 0x3D3504F3#32, 0x3D000000#32, 0x3CB504F3#32, 0x3C800000#32, 0x3C3504F3#32]

/-! ### Host transactions -/

/-- R402: the first check that applies, in the rule's order, is the only error a transaction raises; with none, the
transaction takes effect by its rule: a CMD write issues its command, any other transaction is its access, and the error
record stays as it is unless the transaction is the write to ERR. -/
def Obligations.ChecksRunInOrder : Prop :=
  ∀ (t : Txn) (s : State),
    (∀ e, ruleError t s = some e → transact t s = .next (refuse e t s)) ∧
    (ruleError t s = none → ∃ u, transact t s = .next u ∧
      (t.isWrite = true → t.offset = 0x010#18 → ∃ i : Instr, decodeWord t.wdata = .ok i ∧ u = { s with
        lastCmd := t.wdata, seq := passes i s.sizeL.toNat, pass := 0#5, busy := true, done := false }) ∧
      (¬ (t.isWrite = true ∧ t.offset = 0x010#18) → u = access t s) ∧
      (¬ (t.isWrite = true ∧ t.offset = 0x018#18) →
        u.errCode = s.errCode ∧ u.errMulti = s.errMulti ∧ u.errAddr = s.errAddr ∧ u.errData = s.errData))

/-- R401: the first error records its code and its transaction, field by field; a further one only sets MULTI; ERRF reads 1;
a refused read returns 0 and nothing else changes. -/
def Obligations.RaiseRecordsTheFirstError : Prop :=
  ∀ (e : ErrCode) (t : Txn) (s : State), let u := refuse e t s
    (s.errCode = none → u.errCode = some e ∧ u.errMulti = s.errMulti ∧
      u.errAddr.extractLsb' 0 18 = t.offset ∧ u.errAddr.extractLsb' 18 6 = 0#6 ∧
      u.errAddr.extractLsb' 24 2 = t.size.log2 ∧ u.errAddr.extractLsb' 26 5 = 0#5 ∧
      u.errAddr.getLsbD 31 = t.isWrite ∧ u.errData = (if t.isWrite then t.wdata else 0#32)) ∧
    (s.errCode ≠ none → u.errCode = s.errCode ∧ u.errMulti = true ∧ u.errAddr = s.errAddr ∧ u.errData = s.errData) ∧
    u.statusWord.getLsbD 2 = true ∧
    u.rdata = (if t.isWrite then s.rdata else some 0x00000000#32) ∧
    { u with errCode := s.errCode, errMulti := s.errMulti, errAddr := s.errAddr, errData := s.errData,
             rdata := s.rdata } = s

/-- R404: an error-free write to ERR clears the whole record, and so does reset; nothing else does. A 4-byte write to ERR is
never refused, even while busy. -/
def Obligations.OnlyErrWriteAndResetClearTheRecord : Prop :=
  (∀ (w : Word) (s : State), transact (writeAt 0x018#18 w) s = .next { s with
    errCode := none, errMulti := false, errAddr := 0x00000000#32, errData := 0x00000000#32 }) ∧
  (∀ (s t : State), step s = .next t → s.inputs.head? = some .reset →
    t.errCode = none ∧ t.errMulti = false ∧ t.errAddr = 0x00000000#32 ∧ t.errData = 0x00000000#32) ∧
  (∀ (s t : State) (e : ErrCode), step s = .next t → s.errCode = some e → s.inputs.head? ≠ some .reset →
    (∀ w, s.inputs.head? ≠ some (.host (writeAt 0x018#18 w))) →
    t.errCode = some e ∧ t.errAddr = s.errAddr ∧ t.errData = s.errData ∧ (s.errMulti = true → t.errMulti = true))

/-- R105 and R106: a misaligned transaction, and one of 1 or 2 bytes, raises BUS_ACCESS in every region and at every time;
a write changes nothing else and a read returns 0. -/
def Obligations.MisalignedOrNarrowIsRefused : Prop :=
  ∀ (off : BitVec 18) (z : Size) (w : Word) (s : State), off.toNat % 4 ≠ 0 ∨ z ≠ .four →
    transact ⟨off, z, .write w⟩ s = .next (raise .busAccess ⟨off, z, .write w⟩ s) ∧
    transact ⟨off, z, .read⟩ s = .next { raise .busAccess ⟨off, z, .read⟩ s with rdata := some 0x00000000#32 }

/-- R108: an accepted DATA read returns the entry's part bit for bit and changes no state. -/
def Obligations.DataReadReturnsTheStoredBits : Prop :=
  ∀ (k : Nat) (off : BitVec 18) (s : State), s.busy = false → k < s.size → k < 8192 →
    (off.toNat = 0x10000 + 8 * k → transact (readAt off) s = .next { s with rdata := some (s.entry k).re }) ∧
    (off.toNat = 0x10000 + 8 * k + 4 → transact (readAt off) s = .next { s with rdata := some (s.entry k).im })

/-- R109: an accepted DATA write stores its word bit for bit in the entry's part; every other byte of the data RAM and every
other part of the state is unchanged. -/
def Obligations.DataWriteStoresItsBits : Prop :=
  ∀ (k : Nat) (off : BitVec 18) (w : Word) (s : State), s.busy = false → k < s.size → k < 8192 →
    off.toNat = 0x10000 + 8 * k ∨ off.toNat = 0x10000 + 8 * k + 4 →
    ∃ t, transact (writeAt off w) s = .next t ∧
      t.entry k = (if off.toNat = 0x10000 + 8 * k then ⟨w, (s.entry k).im⟩ else ⟨(s.entry k).re, w⟩) ∧
      (∀ a, a < off.toNat ∨ off.toNat + 4 ≤ a → t.readByte a = s.readByte a) ∧
      { t with data := s.data } = s

/-- R110: the REV window, idle or busy. -/
def Obligations.RevWindow : Prop :=
  ∀ (off : BitVec 18) (w : Word) (s : State), off.toNat % 4 = 0 → 0x30000 ≤ off.toNat →
    transact (writeAt off w) s = .next (raise .busAccess (writeAt off w) s) ∧
    (s.size ≤ (off.toNat - 0x30000) / 4 → transact (readAt off) s =
      .next { raise .sizeMismatch (readAt off) s with rdata := some 0x00000000#32 }) ∧
    ((off.toNat - 0x30000) / 4 < s.size → transact (readAt off) s =
      .next { s with rdata := some (BitVec.ofNat 32 (revBits s.sizeL.toNat ((off.toNat - 0x30000) / 4))) })

/-- R111: the ROOT window, idle or busy. -/
def Obligations.RootWindow : Prop :=
  ∀ (off : BitVec 18) (w : Word) (s : State), off.toNat % 4 = 0 → 0x20000 ≤ off.toNat → off.toNat < 0x30000 →
    let c := root s.lmax.toNat s.sizeL.toNat ((off.toNat - 0x20000) / 8)
    transact (writeAt off w) s = .next (raise .busAccess (writeAt off w) s) ∧
    (s.size ≤ (off.toNat - 0x20000) / 8 → transact (readAt off) s =
      .next { raise .sizeMismatch (readAt off) s with rdata := some 0x00000000#32 }) ∧
    ((off.toNat - 0x20000) / 8 < s.size → transact (readAt off) s =
      .next { s with rdata := some (if off.toNat % 8 = 0 then c.re else c.im) })

/-- R113: a read that raises no error changes no state but the read port; one that raises an error changes only the error
record. -/
def Obligations.ReadsHaveNoSideEffects : Prop :=
  ∀ (off : BitVec 18) (z : Size) (s : State),
    (ruleError ⟨off, z, .read⟩ s = none → ∃ v, transact ⟨off, z, .read⟩ s = .next { s with rdata := some v }) ∧
    (∀ e, ruleError ⟨off, z, .read⟩ s = some e → ∃ u, transact ⟨off, z, .read⟩ s = .next u ∧
      u.rdata = some 0x00000000#32 ∧
      { u with errCode := s.errCode, errMulti := s.errMulti, errAddr := s.errAddr, errData := s.errData,
               rdata := s.rdata } = s)

/-! ### Registers -/

/-- R66: a STATUS read returns BUSY, DONE, ERRF and PASS in their places with every other bit 0; a STATUS write clears DONE
when bit 1 is written 1 and does nothing else. Both hold idle and busy. -/
def Obligations.StatusRegister : Prop :=
  ∀ (s : State) (w : Word),
    (∃ v, transact (readAt 0x014#18) s = .next { s with rdata := some v } ∧
      v.getLsbD 0 = s.busy ∧ v.getLsbD 1 = s.done ∧ v.getLsbD 2 = s.errCode.isSome ∧
      v.extractLsb' 3 5 = 0#5 ∧ v.extractLsb' 8 5 = s.pass ∧ v.extractLsb' 13 19 = 0#19) ∧
    transact (writeAt 0x014#18 w) s = .next { s with done := s.done && !w.getLsbD 1 }

/-- R67: an ERR read returns the code of R400 and MULTI in their places with every other bit 0. -/
def Obligations.ErrRegisterRead : Prop :=
  ∀ s : State, ∃ v, transact (readAt 0x018#18) s = .next { s with rdata := some v } ∧
    v.extractLsb' 0 4 = (match s.errCode with
      | none => 0#4 | some .invalidSize => 1#4 | some .sizeMismatch => 2#4 | some .illegalCmd => 3#4
      | some .busy => 4#4 | some .busAccess => 5#4) ∧
    v.extractLsb' 4 4 = 0#4 ∧ v.getLsbD 8 = s.errMulti ∧ v.extractLsb' 9 23 = 0#23

/-- R70: CTRL reads back its two enables with every other bit 0, a write stores bits 0 and 1, also while busy, and both are 0
at reset. -/
def Obligations.ControlRegister : Prop :=
  (∀ (s : State) (w : Word),
    (∃ v, transact (readAt 0x008#18) s = .next { s with rdata := some v } ∧
      v.getLsbD 0 = s.doneIe ∧ v.getLsbD 1 = s.errIe ∧ v.extractLsb' 2 30 = 0#30) ∧
    transact (writeAt 0x008#18 w) s = .next { s with doneIe := w.getLsbD 0, errIe := w.getLsbD 1 }) ∧
  State.reset.doneIe = false ∧ State.reset.errIe = false

/-- R64: SIZE reads back L; a write is refused with BUSY while a command runs and with INVALID_SIZE when the whole word is
not a legal L, and otherwise stores it and leaves DATA alone; L is 1 at reset. -/
def Obligations.SizeRegister : Prop :=
  (∀ (s : State) (w : Word), s.lmax.toNat ≤ 13 →
    transact (readAt 0x00C#18) s = .next { s with rdata := some (s.sizeL.setWidth 32) } ∧
    (s.busy = true → transact (writeAt 0x00C#18 w) s = .next (raise .busy (writeAt 0x00C#18 w) s)) ∧
    (s.busy = false → w.toNat < 1 ∨ s.lmax.toNat < w.toNat →
      transact (writeAt 0x00C#18 w) s = .next (raise .invalidSize (writeAt 0x00C#18 w) s)) ∧
    (s.busy = false → 1 ≤ w.toNat → w.toNat ≤ s.lmax.toNat →
      ∃ l : BitVec 4, l.toNat = w.toNat ∧ transact (writeAt 0x00C#18 w) s = .next { s with sizeL := l })) ∧
  State.reset.sizeL = 1#4

/-- R65: a CMD read returns LASTCMD, idle or busy; an accepted write makes it the written word, a refused one leaves it. -/
def Obligations.CommandRegister : Prop :=
  (∀ (s : State) (w : Word),
    transact (readAt 0x010#18) s = .next { s with rdata := some s.lastCmd } ∧
    ∃ u, transact (writeAt 0x010#18 w) s = .next u ∧
      u.lastCmd = (if s.busy = false ∧ legalWord w s.sizeL.toNat = true then w else s.lastCmd)) ∧
  State.reset.lastCmd = 0x00000000#32

/-- R62, R63, R68, R69: the read-only registers read as their contents at any time, and a write to one raises BUS_ACCESS and
changes nothing else. -/
def Obligations.ReadOnlyRegisters : Prop :=
  ∀ (s : State) (w : Word),
    transact (readAt 0x000#18) s = .next { s with rdata := some 0x46465432#32 } ∧
    transact (readAt 0x004#18) s = .next { s with rdata := some (s.lmax.setWidth 32) } ∧
    transact (readAt 0x01C#18) s = .next { s with rdata := some s.errAddr } ∧
    transact (readAt 0x020#18) s = .next { s with rdata := some s.errData } ∧
    ∀ off ∈ [0x000#18, 0x004#18, 0x01C#18, 0x020#18],
      transact (writeAt off w) s = .next (raise .busAccess (writeAt off w) s)

/-- R410 and R411: writing the enables masks and unmasks `irq` at once and leaves both pending bits. -/
def Obligations.EnablesMaskTheInterrupt : Prop :=
  ∀ (s : State) (w : Word), ∃ t, transact (writeAt 0x008#18 w) s = .next t ∧
    (t.irq = true ↔ (s.done = true ∧ w.getLsbD 0 = true) ∨ (s.errCode ≠ none ∧ w.getLsbD 1 = true)) ∧
    t.done = s.done ∧ t.errCode = s.errCode

/-! ### The whole machine -/

/-- R411: DONE rises only in the step of a last pass, and falls only by writing 1 to STATUS bit 1, by an accepted command
or by reset. -/
def Obligations.DoneChangesOnlyByRule : Prop :=
  ∀ s t : State, step s = .next t →
    (s.done = false → t.done = true →
      s.busy = true ∧ t.busy = false ∧ t.pass.toNat = t.seq.length ∧ t.seq = s.seq) ∧
    (s.done = true → t.done = false →
      (∃ w, s.inputs.head? = some (.host (writeAt 0x014#18 w)) ∧ w.getLsbD 1 = true) ∨
      (∃ w, s.inputs.head? = some (.host (writeAt 0x010#18 w)) ∧ s.busy = false ∧
        legalWord w s.sizeL.toNat = true) ∨
      s.inputs.head? = some .reset)

/-- R54: no step but reset changes an entry k ≥ N, no pass of a command reads one, and every transaction to one is
refused. -/
def Obligations.EntriesBeyondTheBufferAreUntouched : Prop :=
  (∀ (s t : State) (k : Nat), step s = .next t → s.inputs.head? ≠ some .reset → s.size ≤ k → t.entry k = s.entry k) ∧
  (∀ (lmax L : Nat) (i : Instr) (p : Pass) (D D' : Nat → Cplx), i.wellFormed L = true → p ∈ passes i L →
    (∀ k, k < 2 ^ L → D k = D' k) → ∀ k, k < 2 ^ L → applyPass lmax L p D k = applyPass lmax L p D' k) ∧
  (∀ (s : State) (t : Txn), 0x10000 ≤ t.offset.toNat → t.offset.toNat < 0x20000 →
    s.size ≤ (t.offset.toNat - 0x10000) / 8 → ∃ e, transact t s = .next (refuse e t s))

/-- R354: while a command runs, no host transaction changes the running sequence, its position, the size, LASTCMD or DATA,
writes to CMD, SIZE and DATA are refused, and a step ends the command only by its last pass or by reset. -/
def Obligations.OnlyResetEndsACommandEarly : Prop :=
  ∀ s : State, s.busy = true →
    (∀ t : Txn, ∃ u, transact t s = .next u ∧ u.busy = true ∧ u.seq = s.seq ∧ u.pass = s.pass ∧ u.sizeL = s.sizeL ∧
      u.lastCmd = s.lastCmd ∧ u.data = s.data) ∧
    (∀ (off : BitVec 18) (w : Word),
      off = 0x010#18 ∨ off = 0x00C#18 ∨ (off.toNat % 4 = 0 ∧ 0x10000 ≤ off.toNat ∧ off.toNat < 0x20000) →
      transact (writeAt off w) s = .next (raise .busy (writeAt off w) s)) ∧
    (∀ t, step s = .next t → t.busy = false →
      s.inputs.head? = some .reset ∨ (t.pass.toNat = s.seq.length ∧ t.done = true))

/-- R73, R107: while a command runs, two blocks that differ only in DATA answer every host transaction alike and still differ
only in DATA: the host learns nothing of the buffer. -/
def Obligations.BusyBlockHidesItsData : Prop :=
  ∀ (s : State) (m : Memory) (t : Txn), s.busy = true →
    ∃ u, transact t s = .next u ∧ transact t { s with data := m } = .next { u with data := m }

/-- R450 and R451: the reset step, at any time, gives every register its reset value and leaves every byte of DATA an
unspecified value of its own, which the model says by its free values (log entry 2); STATUS reads 0 and irq is 0. -/
def Obligations.ResetStepSetsEveryRegister : Prop :=
  ∀ (s : State) (rest : List Event), s.inputs = .reset :: rest →
    ∃ t, step s = .next t ∧ t.doneIe = false ∧ t.errIe = false ∧ t.sizeL = 1#4 ∧ t.lastCmd = 0x00000000#32 ∧
      t.done = false ∧ t.errCode = none ∧ t.errMulti = false ∧ t.errAddr = 0x00000000#32 ∧
      t.errData = 0x00000000#32 ∧ t.busy = false ∧ t.pass = 0#5 ∧ t.seq = [] ∧
      (∀ a, t.readByte a = Config.dataInit (s.resets + 1) a) ∧
      t.lmax = s.lmax ∧ t.irq = false ∧ t.statusWord = 0x00000000#32

/-- The invariant holds at reset. -/
def Obligations.InvariantHoldsAtReset : Prop := Inv State.reset

/-- Every step keeps the invariant: legal sizes, the canonical form of the data RAM, PASS against |SEQ|, DONE while busy, SEQ
of LASTCMD, and the error record's reserved and cleared fields. -/
def Obligations.EveryStepKeepsTheInvariant : Prop :=
  ∀ s t : State, Inv s → step s = .next t → Inv t

/-- R156, R354, R405: no step from a state of the invariant stops, whatever the agents do. -/
def Obligations.TheBlockNeverStops : Prop := ∀ s : State, Inv s → GoesOn (step s)
end

