-- ==== Sys2Proof/Laws/Encoding.lean ====
section
/-! SUPPORT. Decoding and encoding agree; legality is well-formedness of the decoded command. -/

namespace Sys2Proof

theorem decode_encode (i : Instr) : decodeWord (encode i) = .ok i := by
  cases i with
  | bfly e => revert e; decide
  | _ => decide

/-- A word is its four fields (R151). -/
theorem word_eq_fields (w : Word) : w = fieldRsv1 w ++ fieldStg w ++ fieldRsv0 w ++ fieldOp w := by
  apply BitVec.eq_of_getLsbD_eq
  intro i hi
  simp only [fieldRsv1, fieldStg, fieldRsv0, fieldOp, BitVec.getLsbD_append, BitVec.getLsbD_extractLsb']
  rcases (by omega : i < 4 ∨ (4 ≤ i ∧ i < 8) ∨ (8 ≤ i ∧ i < 12) ∨ 12 ≤ i) with h | h | h | h
  · simp [h]
  · simp [show ¬ i < 4 by omega, show i - 4 < 4 by omega, show 4 + (i - 4) = i by omega]
  · simp [show ¬ i < 4 by omega, show ¬ i - 4 < 4 by omega, show i - 4 - 4 < 4 by omega,
      show 8 + (i - 4 - 4) = i by omega]
  · simp [show ¬ i < 4 by omega, show ¬ i - 4 < 4 by omega, show ¬ i - 4 - 4 < 4 by omega,
      show i - 4 - 4 - 4 < 20 by omega, show 12 + (i - 4 - 4 - 4) = i by omega]

/-- The decoder reads each command from one word only. -/
theorem encode_of_decode {w : Word} {i : Instr} (h : decodeWord w = .ok i) : w = encode i := by
  rw [word_eq_fields w]
  unfold decodeWord at h
  generalize fieldRsv1 w = r1 at *
  generalize fieldRsv0 w = r0 at *
  generalize fieldStg w = g at *
  generalize fieldOp w = o at *
  split at h
  · cases h
  · rename_i hr
    have hr0 : r0 = 0#4 := by by_contra hc; exact hr (.inl hc)
    have hr1 : r1 = 0#20 := by by_contra hc; exact hr (.inr hc)
    subst hr0 hr1
    repeat' split at h
    all_goals first
      | (cases h; done)
      | (have h' := (Except.ok.inj h).symm; subst h'; simp_all [encode])

theorem legal_encode (i : Instr) (L : Nat) : legalWord (encode i) L = i.wellFormed L := by
  cases i with
  | bfly e =>
    have h : fieldRsv1 (encode (.bfly e)) = 0#20 ∧ fieldRsv0 (encode (.bfly e)) = 0#4 ∧
        fieldOp (encode (.bfly e)) = 2#4 ∧ fieldStg (encode (.bfly e)) = e := by revert e; decide
    obtain ⟨h1, h2, h3, h4⟩ := h
    simp [legalWord, h1, h2, h3, h4, Instr.wellFormed]
  | _ => rfl

theorem decodes_of_legal {w : Word} {L : Nat} (h : legalWord w L = true) : ∃ i, decodeWord w = .ok i := by
  simp only [legalWord, Bool.and_eq_true, Bool.or_eq_true, decide_eq_true_eq, List.mem_cons, List.not_mem_nil,
    or_false] at h
  obtain ⟨⟨h1, h0⟩, ⟨h2 | h2 | h2 | h2 | h2, h3⟩ | ⟨⟨h2, -⟩, -⟩⟩ := h <;>
    simp [decodeWord, h0, h1, h2] <;> simp [h3]

/-- The byte lanes of a word give the word back (R104). -/
theorem wordOfBytes_lanes (w : Word) : wordOfBytes (w.extractLsb' 0 8) (w.extractLsb' 8 8) (w.extractLsb' 16 8)
    (w.extractLsb' 24 8) = w := by
  apply BitVec.eq_of_getLsbD_eq
  intro i hi
  simp only [wordOfBytes, BitVec.getLsbD_append, BitVec.getLsbD_extractLsb']
  rcases (by omega : i < 8 ∨ (8 ≤ i ∧ i < 16) ∨ (16 ≤ i ∧ i < 24) ∨ 24 ≤ i) with h | h | h | h
  · simp [h]
  · simp [show ¬ i < 8 by omega, show i - 8 < 8 by omega, show 8 + (i - 8) = i by omega]
  · simp [show ¬ i < 8 by omega, show ¬ i - 8 < 8 by omega, show i - 8 - 8 < 8 by omega,
      show 16 + (i - 8 - 8) = i by omega]
  · simp [show ¬ i < 8 by omega, show ¬ i - 8 < 8 by omega, show ¬ i - 8 - 8 < 8 by omega,
      show i - 8 - 8 - 8 < 8 by omega, show 24 + (i - 8 - 8 - 8) = i by omega]

theorem decodeBytes_wordBytes (w : Word) : decodeBytes (wordBytes w) = decodeWord w := by
  simp [decodeBytes, wordBytes, wordOfBytes_lanes]

end Sys2Proof
end

