-- ==== Sys2Proof/Laws/State.lean ====
section
/-! SUPPORT. What each named update of the state does to each field. -/

namespace Sys2Proof.Machine

variable (s : State)

/-! ### raise -/

@[simp] theorem raise_lmax (e : ErrCode) (t : Txn) : (raise e t s).lmax = s.lmax := by
  unfold raise; split <;> simp [*]
@[simp] theorem raise_doneIe (e : ErrCode) (t : Txn) : (raise e t s).doneIe = s.doneIe := by
  unfold raise; split <;> simp [*]
@[simp] theorem raise_errIe (e : ErrCode) (t : Txn) : (raise e t s).errIe = s.errIe := by
  unfold raise; split <;> simp [*]
@[simp] theorem raise_sizeL (e : ErrCode) (t : Txn) : (raise e t s).sizeL = s.sizeL := by
  unfold raise; split <;> simp [*]
@[simp] theorem raise_lastCmd (e : ErrCode) (t : Txn) : (raise e t s).lastCmd = s.lastCmd := by
  unfold raise; split <;> simp [*]
@[simp] theorem raise_done (e : ErrCode) (t : Txn) : (raise e t s).done = s.done := by
  unfold raise; split <;> simp [*]
@[simp] theorem raise_errCode (e : ErrCode) (t : Txn) : (raise e t s).errCode = some (s.errCode.getD e) := by
  unfold raise; split <;> simp [*]
@[simp] theorem raise_errMulti (e : ErrCode) (t : Txn) : (raise e t s).errMulti = (s.errMulti || s.errCode.isSome) := by
  unfold raise; split <;> simp [*]
@[simp] theorem raise_errAddr (e : ErrCode) (t : Txn) : (raise e t s).errAddr = (if s.errCode = none then t.image else s.errAddr) := by
  unfold raise; split <;> simp [*]
@[simp] theorem raise_errData (e : ErrCode) (t : Txn) : (raise e t s).errData = (if s.errCode = none then t.wdata else s.errData) := by
  unfold raise; split <;> simp [*]
@[simp] theorem raise_busy (e : ErrCode) (t : Txn) : (raise e t s).busy = s.busy := by
  unfold raise; split <;> simp [*]
@[simp] theorem raise_pass (e : ErrCode) (t : Txn) : (raise e t s).pass = s.pass := by
  unfold raise; split <;> simp [*]
@[simp] theorem raise_seq (e : ErrCode) (t : Txn) : (raise e t s).seq = s.seq := by
  unfold raise; split <;> simp [*]
@[simp] theorem raise_data (e : ErrCode) (t : Txn) : (raise e t s).data = s.data := by
  unfold raise; split <;> simp [*]
@[simp] theorem raise_resets (e : ErrCode) (t : Txn) : (raise e t s).resets = s.resets := by
  unfold raise; split <;> simp [*]
@[simp] theorem raise_rdata (e : ErrCode) (t : Txn) : (raise e t s).rdata = s.rdata := by
  unfold raise; split <;> simp [*]
@[simp] theorem raise_inputs (e : ErrCode) (t : Txn) : (raise e t s).inputs = s.inputs := by
  unfold raise; split <;> simp [*]

/-! ### refuse -/

@[simp] theorem refuse_lmax (e : ErrCode) (t : Txn) : (refuse e t s).lmax = s.lmax := by
  rcases t with ⟨_, _, _ | _⟩ <;> simp [refuse]
@[simp] theorem refuse_doneIe (e : ErrCode) (t : Txn) : (refuse e t s).doneIe = s.doneIe := by
  rcases t with ⟨_, _, _ | _⟩ <;> simp [refuse]
@[simp] theorem refuse_errIe (e : ErrCode) (t : Txn) : (refuse e t s).errIe = s.errIe := by
  rcases t with ⟨_, _, _ | _⟩ <;> simp [refuse]
@[simp] theorem refuse_sizeL (e : ErrCode) (t : Txn) : (refuse e t s).sizeL = s.sizeL := by
  rcases t with ⟨_, _, _ | _⟩ <;> simp [refuse]
@[simp] theorem refuse_lastCmd (e : ErrCode) (t : Txn) : (refuse e t s).lastCmd = s.lastCmd := by
  rcases t with ⟨_, _, _ | _⟩ <;> simp [refuse]
@[simp] theorem refuse_done (e : ErrCode) (t : Txn) : (refuse e t s).done = s.done := by
  rcases t with ⟨_, _, _ | _⟩ <;> simp [refuse]
@[simp] theorem refuse_errCode (e : ErrCode) (t : Txn) : (refuse e t s).errCode = (raise e t s).errCode := by
  rcases t with ⟨_, _, _ | _⟩ <;> simp [refuse]
@[simp] theorem refuse_errMulti (e : ErrCode) (t : Txn) : (refuse e t s).errMulti = (raise e t s).errMulti := by
  rcases t with ⟨_, _, _ | _⟩ <;> simp [refuse]
@[simp] theorem refuse_errAddr (e : ErrCode) (t : Txn) : (refuse e t s).errAddr = (raise e t s).errAddr := by
  rcases t with ⟨_, _, _ | _⟩ <;> simp [refuse]
@[simp] theorem refuse_errData (e : ErrCode) (t : Txn) : (refuse e t s).errData = (raise e t s).errData := by
  rcases t with ⟨_, _, _ | _⟩ <;> simp [refuse]
@[simp] theorem refuse_busy (e : ErrCode) (t : Txn) : (refuse e t s).busy = s.busy := by
  rcases t with ⟨_, _, _ | _⟩ <;> simp [refuse]
@[simp] theorem refuse_pass (e : ErrCode) (t : Txn) : (refuse e t s).pass = s.pass := by
  rcases t with ⟨_, _, _ | _⟩ <;> simp [refuse]
@[simp] theorem refuse_seq (e : ErrCode) (t : Txn) : (refuse e t s).seq = s.seq := by
  rcases t with ⟨_, _, _ | _⟩ <;> simp [refuse]
@[simp] theorem refuse_data (e : ErrCode) (t : Txn) : (refuse e t s).data = s.data := by
  rcases t with ⟨_, _, _ | _⟩ <;> simp [refuse]
@[simp] theorem refuse_resets (e : ErrCode) (t : Txn) : (refuse e t s).resets = s.resets := by
  rcases t with ⟨_, _, _ | _⟩ <;> simp [refuse]
@[simp] theorem refuse_rdata (e : ErrCode) (t : Txn) : (refuse e t s).rdata = (if t.isWrite then s.rdata else some 0#32) := by
  rcases t with ⟨_, _, _ | _⟩ <;> simp [refuse, Txn.isWrite]
@[simp] theorem refuse_inputs (e : ErrCode) (t : Txn) : (refuse e t s).inputs = s.inputs := by
  rcases t with ⟨_, _, _ | _⟩ <;> simp [refuse]

/-! ### clearErr -/

@[simp] theorem clearErr_lmax : (clearErr s).lmax = s.lmax := rfl
@[simp] theorem clearErr_doneIe : (clearErr s).doneIe = s.doneIe := rfl
@[simp] theorem clearErr_errIe : (clearErr s).errIe = s.errIe := rfl
@[simp] theorem clearErr_sizeL : (clearErr s).sizeL = s.sizeL := rfl
@[simp] theorem clearErr_lastCmd : (clearErr s).lastCmd = s.lastCmd := rfl
@[simp] theorem clearErr_done : (clearErr s).done = s.done := rfl
@[simp] theorem clearErr_errCode : (clearErr s).errCode = none := rfl
@[simp] theorem clearErr_errMulti : (clearErr s).errMulti = false := rfl
@[simp] theorem clearErr_errAddr : (clearErr s).errAddr = 0#32 := rfl
@[simp] theorem clearErr_errData : (clearErr s).errData = 0#32 := rfl
@[simp] theorem clearErr_busy : (clearErr s).busy = s.busy := rfl
@[simp] theorem clearErr_pass : (clearErr s).pass = s.pass := rfl
@[simp] theorem clearErr_seq : (clearErr s).seq = s.seq := rfl
@[simp] theorem clearErr_data : (clearErr s).data = s.data := rfl
@[simp] theorem clearErr_resets : (clearErr s).resets = s.resets := rfl
@[simp] theorem clearErr_rdata : (clearErr s).rdata = s.rdata := rfl
@[simp] theorem clearErr_inputs : (clearErr s).inputs = s.inputs := rfl

/-! ### accept -/

@[simp] theorem accept_lmax (w : Word) (ps : List Pass) : (accept w ps s).lmax = s.lmax := rfl
@[simp] theorem accept_doneIe (w : Word) (ps : List Pass) : (accept w ps s).doneIe = s.doneIe := rfl
@[simp] theorem accept_errIe (w : Word) (ps : List Pass) : (accept w ps s).errIe = s.errIe := rfl
@[simp] theorem accept_sizeL (w : Word) (ps : List Pass) : (accept w ps s).sizeL = s.sizeL := rfl
@[simp] theorem accept_lastCmd (w : Word) (ps : List Pass) : (accept w ps s).lastCmd = w := rfl
@[simp] theorem accept_done (w : Word) (ps : List Pass) : (accept w ps s).done = false := rfl
@[simp] theorem accept_errCode (w : Word) (ps : List Pass) : (accept w ps s).errCode = s.errCode := rfl
@[simp] theorem accept_errMulti (w : Word) (ps : List Pass) : (accept w ps s).errMulti = s.errMulti := rfl
@[simp] theorem accept_errAddr (w : Word) (ps : List Pass) : (accept w ps s).errAddr = s.errAddr := rfl
@[simp] theorem accept_errData (w : Word) (ps : List Pass) : (accept w ps s).errData = s.errData := rfl
@[simp] theorem accept_busy (w : Word) (ps : List Pass) : (accept w ps s).busy = true := rfl
@[simp] theorem accept_pass (w : Word) (ps : List Pass) : (accept w ps s).pass = 0#5 := rfl
@[simp] theorem accept_seq (w : Word) (ps : List Pass) : (accept w ps s).seq = ps := rfl
@[simp] theorem accept_data (w : Word) (ps : List Pass) : (accept w ps s).data = s.data := rfl
@[simp] theorem accept_resets (w : Word) (ps : List Pass) : (accept w ps s).resets = s.resets := rfl
@[simp] theorem accept_rdata (w : Word) (ps : List Pass) : (accept w ps s).rdata = s.rdata := rfl
@[simp] theorem accept_inputs (w : Word) (ps : List Pass) : (accept w ps s).inputs = s.inputs := rfl

/-! ### complete -/

@[simp] theorem complete_lmax : (complete s).lmax = s.lmax := rfl
@[simp] theorem complete_doneIe : (complete s).doneIe = s.doneIe := rfl
@[simp] theorem complete_errIe : (complete s).errIe = s.errIe := rfl
@[simp] theorem complete_sizeL : (complete s).sizeL = s.sizeL := rfl
@[simp] theorem complete_lastCmd : (complete s).lastCmd = s.lastCmd := rfl
@[simp] theorem complete_done : (complete s).done = true := rfl
@[simp] theorem complete_errCode : (complete s).errCode = s.errCode := rfl
@[simp] theorem complete_errMulti : (complete s).errMulti = s.errMulti := rfl
@[simp] theorem complete_errAddr : (complete s).errAddr = s.errAddr := rfl
@[simp] theorem complete_errData : (complete s).errData = s.errData := rfl
@[simp] theorem complete_busy : (complete s).busy = false := rfl
@[simp] theorem complete_pass : (complete s).pass = s.pass := rfl
@[simp] theorem complete_seq : (complete s).seq = s.seq := rfl
@[simp] theorem complete_data : (complete s).data = s.data := rfl
@[simp] theorem complete_resets : (complete s).resets = s.resets := rfl
@[simp] theorem complete_rdata : (complete s).rdata = s.rdata := rfl
@[simp] theorem complete_inputs : (complete s).inputs = s.inputs := rfl

/-! ### countPass -/

@[simp] theorem countPass_lmax : (countPass s).lmax = s.lmax := by
  unfold countPass; dsimp only; split <;> rfl
@[simp] theorem countPass_doneIe : (countPass s).doneIe = s.doneIe := by
  unfold countPass; dsimp only; split <;> rfl
@[simp] theorem countPass_errIe : (countPass s).errIe = s.errIe := by
  unfold countPass; dsimp only; split <;> rfl
@[simp] theorem countPass_sizeL : (countPass s).sizeL = s.sizeL := by
  unfold countPass; dsimp only; split <;> rfl
@[simp] theorem countPass_lastCmd : (countPass s).lastCmd = s.lastCmd := by
  unfold countPass; dsimp only; split <;> rfl
@[simp] theorem countPass_done : (countPass s).done = (if (s.pass + 1#5).toNat = s.seq.length then true else s.done) := by
  unfold countPass; dsimp only; split <;> rfl
@[simp] theorem countPass_errCode : (countPass s).errCode = s.errCode := by
  unfold countPass; dsimp only; split <;> rfl
@[simp] theorem countPass_errMulti : (countPass s).errMulti = s.errMulti := by
  unfold countPass; dsimp only; split <;> rfl
@[simp] theorem countPass_errAddr : (countPass s).errAddr = s.errAddr := by
  unfold countPass; dsimp only; split <;> rfl
@[simp] theorem countPass_errData : (countPass s).errData = s.errData := by
  unfold countPass; dsimp only; split <;> rfl
@[simp] theorem countPass_busy : (countPass s).busy = (if (s.pass + 1#5).toNat = s.seq.length then false else s.busy) := by
  unfold countPass; dsimp only; split <;> rfl
@[simp] theorem countPass_pass : (countPass s).pass = s.pass + 1#5 := by
  unfold countPass; dsimp only; split <;> rfl
@[simp] theorem countPass_seq : (countPass s).seq = s.seq := by
  unfold countPass; dsimp only; split <;> rfl
@[simp] theorem countPass_data : (countPass s).data = s.data := by
  unfold countPass; dsimp only; split <;> rfl
@[simp] theorem countPass_resets : (countPass s).resets = s.resets := by
  unfold countPass; dsimp only; split <;> rfl
@[simp] theorem countPass_rdata : (countPass s).rdata = s.rdata := by
  unfold countPass; dsimp only; split <;> rfl
@[simp] theorem countPass_inputs : (countPass s).inputs = s.inputs := by
  unfold countPass; dsimp only; split <;> rfl

/-! ### resetStep -/

@[simp] theorem resetStep_lmax : (resetStep s).lmax = s.lmax := rfl
@[simp] theorem resetStep_doneIe : (resetStep s).doneIe = false := rfl
@[simp] theorem resetStep_errIe : (resetStep s).errIe = false := rfl
@[simp] theorem resetStep_sizeL : (resetStep s).sizeL = 1#4 := rfl
@[simp] theorem resetStep_lastCmd : (resetStep s).lastCmd = 0#32 := rfl
@[simp] theorem resetStep_done : (resetStep s).done = false := rfl
@[simp] theorem resetStep_errCode : (resetStep s).errCode = none := rfl
@[simp] theorem resetStep_errMulti : (resetStep s).errMulti = false := rfl
@[simp] theorem resetStep_errAddr : (resetStep s).errAddr = 0#32 := rfl
@[simp] theorem resetStep_errData : (resetStep s).errData = 0#32 := rfl
@[simp] theorem resetStep_busy : (resetStep s).busy = false := rfl
@[simp] theorem resetStep_pass : (resetStep s).pass = 0#5 := rfl
@[simp] theorem resetStep_seq : (resetStep s).seq = [] := rfl
@[simp] theorem resetStep_data : (resetStep s).data = [] := rfl
@[simp] theorem resetStep_resets : (resetStep s).resets = s.resets + 1 := rfl
@[simp] theorem resetStep_rdata : (resetStep s).rdata = none := rfl
@[simp] theorem resetStep_inputs : (resetStep s).inputs = s.inputs := rfl

/-! ### storeWord -/

@[simp] theorem storeWord_lmax (a : Nat) (w : Word) : (s.storeWord a w).lmax = s.lmax := rfl
@[simp] theorem storeWord_doneIe (a : Nat) (w : Word) : (s.storeWord a w).doneIe = s.doneIe := rfl
@[simp] theorem storeWord_errIe (a : Nat) (w : Word) : (s.storeWord a w).errIe = s.errIe := rfl
@[simp] theorem storeWord_sizeL (a : Nat) (w : Word) : (s.storeWord a w).sizeL = s.sizeL := rfl
@[simp] theorem storeWord_lastCmd (a : Nat) (w : Word) : (s.storeWord a w).lastCmd = s.lastCmd := rfl
@[simp] theorem storeWord_done (a : Nat) (w : Word) : (s.storeWord a w).done = s.done := rfl
@[simp] theorem storeWord_errCode (a : Nat) (w : Word) : (s.storeWord a w).errCode = s.errCode := rfl
@[simp] theorem storeWord_errMulti (a : Nat) (w : Word) : (s.storeWord a w).errMulti = s.errMulti := rfl
@[simp] theorem storeWord_errAddr (a : Nat) (w : Word) : (s.storeWord a w).errAddr = s.errAddr := rfl
@[simp] theorem storeWord_errData (a : Nat) (w : Word) : (s.storeWord a w).errData = s.errData := rfl
@[simp] theorem storeWord_busy (a : Nat) (w : Word) : (s.storeWord a w).busy = s.busy := rfl
@[simp] theorem storeWord_pass (a : Nat) (w : Word) : (s.storeWord a w).pass = s.pass := rfl
@[simp] theorem storeWord_seq (a : Nat) (w : Word) : (s.storeWord a w).seq = s.seq := rfl
@[simp] theorem storeWord_data (a : Nat) (w : Word) : (s.storeWord a w).data = s.data.writeWord a w := rfl
@[simp] theorem storeWord_resets (a : Nat) (w : Word) : (s.storeWord a w).resets = s.resets := rfl
@[simp] theorem storeWord_rdata (a : Nat) (w : Word) : (s.storeWord a w).rdata = s.rdata := rfl
@[simp] theorem storeWord_inputs (a : Nat) (w : Word) : (s.storeWord a w).inputs = s.inputs := rfl

/-! ### storeBuffer -/

@[simp] theorem storeBuffer_lmax (D : Nat → Cplx) : (s.storeBuffer D).lmax = s.lmax := rfl
@[simp] theorem storeBuffer_doneIe (D : Nat → Cplx) : (s.storeBuffer D).doneIe = s.doneIe := rfl
@[simp] theorem storeBuffer_errIe (D : Nat → Cplx) : (s.storeBuffer D).errIe = s.errIe := rfl
@[simp] theorem storeBuffer_sizeL (D : Nat → Cplx) : (s.storeBuffer D).sizeL = s.sizeL := rfl
@[simp] theorem storeBuffer_lastCmd (D : Nat → Cplx) : (s.storeBuffer D).lastCmd = s.lastCmd := rfl
@[simp] theorem storeBuffer_done (D : Nat → Cplx) : (s.storeBuffer D).done = s.done := rfl
@[simp] theorem storeBuffer_errCode (D : Nat → Cplx) : (s.storeBuffer D).errCode = s.errCode := rfl
@[simp] theorem storeBuffer_errMulti (D : Nat → Cplx) : (s.storeBuffer D).errMulti = s.errMulti := rfl
@[simp] theorem storeBuffer_errAddr (D : Nat → Cplx) : (s.storeBuffer D).errAddr = s.errAddr := rfl
@[simp] theorem storeBuffer_errData (D : Nat → Cplx) : (s.storeBuffer D).errData = s.errData := rfl
@[simp] theorem storeBuffer_busy (D : Nat → Cplx) : (s.storeBuffer D).busy = s.busy := rfl
@[simp] theorem storeBuffer_pass (D : Nat → Cplx) : (s.storeBuffer D).pass = s.pass := rfl
@[simp] theorem storeBuffer_seq (D : Nat → Cplx) : (s.storeBuffer D).seq = s.seq := rfl
@[simp] theorem storeBuffer_resets (D : Nat → Cplx) : (s.storeBuffer D).resets = s.resets := rfl
@[simp] theorem storeBuffer_rdata (D : Nat → Cplx) : (s.storeBuffer D).rdata = s.rdata := rfl
@[simp] theorem storeBuffer_inputs (D : Nat → Cplx) : (s.storeBuffer D).inputs = s.inputs := rfl

/-! ### runPass -/

@[simp] theorem runPass_lmax (p : Pass) : (runPass p s).lmax = s.lmax := rfl
@[simp] theorem runPass_doneIe (p : Pass) : (runPass p s).doneIe = s.doneIe := rfl
@[simp] theorem runPass_errIe (p : Pass) : (runPass p s).errIe = s.errIe := rfl
@[simp] theorem runPass_sizeL (p : Pass) : (runPass p s).sizeL = s.sizeL := rfl
@[simp] theorem runPass_lastCmd (p : Pass) : (runPass p s).lastCmd = s.lastCmd := rfl
@[simp] theorem runPass_done (p : Pass) : (runPass p s).done = s.done := rfl
@[simp] theorem runPass_errCode (p : Pass) : (runPass p s).errCode = s.errCode := rfl
@[simp] theorem runPass_errMulti (p : Pass) : (runPass p s).errMulti = s.errMulti := rfl
@[simp] theorem runPass_errAddr (p : Pass) : (runPass p s).errAddr = s.errAddr := rfl
@[simp] theorem runPass_errData (p : Pass) : (runPass p s).errData = s.errData := rfl
@[simp] theorem runPass_busy (p : Pass) : (runPass p s).busy = s.busy := rfl
@[simp] theorem runPass_pass (p : Pass) : (runPass p s).pass = s.pass := rfl
@[simp] theorem runPass_seq (p : Pass) : (runPass p s).seq = s.seq := rfl
@[simp] theorem runPass_resets (p : Pass) : (runPass p s).resets = s.resets := rfl
@[simp] theorem runPass_rdata (p : Pass) : (runPass p s).rdata = s.rdata := rfl
@[simp] theorem runPass_inputs (p : Pass) : (runPass p s).inputs = s.inputs := rfl

/-! ### begin -/

@[simp] theorem begin_lmax (rest : List Event) : (s.begin rest).lmax = s.lmax := rfl
@[simp] theorem begin_doneIe (rest : List Event) : (s.begin rest).doneIe = s.doneIe := rfl
@[simp] theorem begin_errIe (rest : List Event) : (s.begin rest).errIe = s.errIe := rfl
@[simp] theorem begin_sizeL (rest : List Event) : (s.begin rest).sizeL = s.sizeL := rfl
@[simp] theorem begin_lastCmd (rest : List Event) : (s.begin rest).lastCmd = s.lastCmd := rfl
@[simp] theorem begin_done (rest : List Event) : (s.begin rest).done = s.done := rfl
@[simp] theorem begin_errCode (rest : List Event) : (s.begin rest).errCode = s.errCode := rfl
@[simp] theorem begin_errMulti (rest : List Event) : (s.begin rest).errMulti = s.errMulti := rfl
@[simp] theorem begin_errAddr (rest : List Event) : (s.begin rest).errAddr = s.errAddr := rfl
@[simp] theorem begin_errData (rest : List Event) : (s.begin rest).errData = s.errData := rfl
@[simp] theorem begin_busy (rest : List Event) : (s.begin rest).busy = s.busy := rfl
@[simp] theorem begin_pass (rest : List Event) : (s.begin rest).pass = s.pass := rfl
@[simp] theorem begin_seq (rest : List Event) : (s.begin rest).seq = s.seq := rfl
@[simp] theorem begin_data (rest : List Event) : (s.begin rest).data = s.data := rfl
@[simp] theorem begin_resets (rest : List Event) : (s.begin rest).resets = s.resets := rfl
@[simp] theorem begin_rdata (rest : List Event) : (s.begin rest).rdata = none := rfl
@[simp] theorem begin_inputs (rest : List Event) : (s.begin rest).inputs = rest := rfl

/-! ### writeCtrl -/

@[simp] theorem writeCtrl_lmax (w : Word) : (writeCtrl w s).lmax = s.lmax := rfl
@[simp] theorem writeCtrl_doneIe (w : Word) : (writeCtrl w s).doneIe = w.getLsbD 0 := rfl
@[simp] theorem writeCtrl_errIe (w : Word) : (writeCtrl w s).errIe = w.getLsbD 1 := rfl
@[simp] theorem writeCtrl_sizeL (w : Word) : (writeCtrl w s).sizeL = s.sizeL := rfl
@[simp] theorem writeCtrl_lastCmd (w : Word) : (writeCtrl w s).lastCmd = s.lastCmd := rfl
@[simp] theorem writeCtrl_done (w : Word) : (writeCtrl w s).done = s.done := rfl
@[simp] theorem writeCtrl_errCode (w : Word) : (writeCtrl w s).errCode = s.errCode := rfl
@[simp] theorem writeCtrl_errMulti (w : Word) : (writeCtrl w s).errMulti = s.errMulti := rfl
@[simp] theorem writeCtrl_errAddr (w : Word) : (writeCtrl w s).errAddr = s.errAddr := rfl
@[simp] theorem writeCtrl_errData (w : Word) : (writeCtrl w s).errData = s.errData := rfl
@[simp] theorem writeCtrl_busy (w : Word) : (writeCtrl w s).busy = s.busy := rfl
@[simp] theorem writeCtrl_pass (w : Word) : (writeCtrl w s).pass = s.pass := rfl
@[simp] theorem writeCtrl_seq (w : Word) : (writeCtrl w s).seq = s.seq := rfl
@[simp] theorem writeCtrl_data (w : Word) : (writeCtrl w s).data = s.data := rfl
@[simp] theorem writeCtrl_resets (w : Word) : (writeCtrl w s).resets = s.resets := rfl
@[simp] theorem writeCtrl_rdata (w : Word) : (writeCtrl w s).rdata = s.rdata := rfl
@[simp] theorem writeCtrl_inputs (w : Word) : (writeCtrl w s).inputs = s.inputs := rfl

/-! ### writeSize -/

@[simp] theorem writeSize_lmax (w : Word) : (writeSize w s).lmax = s.lmax := rfl
@[simp] theorem writeSize_doneIe (w : Word) : (writeSize w s).doneIe = s.doneIe := rfl
@[simp] theorem writeSize_errIe (w : Word) : (writeSize w s).errIe = s.errIe := rfl
@[simp] theorem writeSize_sizeL (w : Word) : (writeSize w s).sizeL = w.extractLsb' 0 4 := rfl
@[simp] theorem writeSize_lastCmd (w : Word) : (writeSize w s).lastCmd = s.lastCmd := rfl
@[simp] theorem writeSize_done (w : Word) : (writeSize w s).done = s.done := rfl
@[simp] theorem writeSize_errCode (w : Word) : (writeSize w s).errCode = s.errCode := rfl
@[simp] theorem writeSize_errMulti (w : Word) : (writeSize w s).errMulti = s.errMulti := rfl
@[simp] theorem writeSize_errAddr (w : Word) : (writeSize w s).errAddr = s.errAddr := rfl
@[simp] theorem writeSize_errData (w : Word) : (writeSize w s).errData = s.errData := rfl
@[simp] theorem writeSize_busy (w : Word) : (writeSize w s).busy = s.busy := rfl
@[simp] theorem writeSize_pass (w : Word) : (writeSize w s).pass = s.pass := rfl
@[simp] theorem writeSize_seq (w : Word) : (writeSize w s).seq = s.seq := rfl
@[simp] theorem writeSize_data (w : Word) : (writeSize w s).data = s.data := rfl
@[simp] theorem writeSize_resets (w : Word) : (writeSize w s).resets = s.resets := rfl
@[simp] theorem writeSize_rdata (w : Word) : (writeSize w s).rdata = s.rdata := rfl
@[simp] theorem writeSize_inputs (w : Word) : (writeSize w s).inputs = s.inputs := rfl

/-! ### writeStatus -/

@[simp] theorem writeStatus_lmax (w : Word) : (writeStatus w s).lmax = s.lmax := by
  unfold writeStatus; split <;> rfl
@[simp] theorem writeStatus_doneIe (w : Word) : (writeStatus w s).doneIe = s.doneIe := by
  unfold writeStatus; split <;> rfl
@[simp] theorem writeStatus_errIe (w : Word) : (writeStatus w s).errIe = s.errIe := by
  unfold writeStatus; split <;> rfl
@[simp] theorem writeStatus_sizeL (w : Word) : (writeStatus w s).sizeL = s.sizeL := by
  unfold writeStatus; split <;> rfl
@[simp] theorem writeStatus_lastCmd (w : Word) : (writeStatus w s).lastCmd = s.lastCmd := by
  unfold writeStatus; split <;> rfl
@[simp] theorem writeStatus_done (w : Word) : (writeStatus w s).done = (if w.getLsbD 1 then false else s.done) := by
  unfold writeStatus; split <;> rfl
@[simp] theorem writeStatus_errCode (w : Word) : (writeStatus w s).errCode = s.errCode := by
  unfold writeStatus; split <;> rfl
@[simp] theorem writeStatus_errMulti (w : Word) : (writeStatus w s).errMulti = s.errMulti := by
  unfold writeStatus; split <;> rfl
@[simp] theorem writeStatus_errAddr (w : Word) : (writeStatus w s).errAddr = s.errAddr := by
  unfold writeStatus; split <;> rfl
@[simp] theorem writeStatus_errData (w : Word) : (writeStatus w s).errData = s.errData := by
  unfold writeStatus; split <;> rfl
@[simp] theorem writeStatus_busy (w : Word) : (writeStatus w s).busy = s.busy := by
  unfold writeStatus; split <;> rfl
@[simp] theorem writeStatus_pass (w : Word) : (writeStatus w s).pass = s.pass := by
  unfold writeStatus; split <;> rfl
@[simp] theorem writeStatus_seq (w : Word) : (writeStatus w s).seq = s.seq := by
  unfold writeStatus; split <;> rfl
@[simp] theorem writeStatus_data (w : Word) : (writeStatus w s).data = s.data := by
  unfold writeStatus; split <;> rfl
@[simp] theorem writeStatus_resets (w : Word) : (writeStatus w s).resets = s.resets := by
  unfold writeStatus; split <;> rfl
@[simp] theorem writeStatus_rdata (w : Word) : (writeStatus w s).rdata = s.rdata := by
  unfold writeStatus; split <;> rfl
@[simp] theorem writeStatus_inputs (w : Word) : (writeStatus w s).inputs = s.inputs := by
  unfold writeStatus; split <;> rfl

/-! ### placeCommand -/

@[simp] theorem placeCommand_lmax (w : Word) : (placeCommand w s).lmax = s.lmax := rfl
@[simp] theorem placeCommand_doneIe (w : Word) : (placeCommand w s).doneIe = s.doneIe := rfl
@[simp] theorem placeCommand_errIe (w : Word) : (placeCommand w s).errIe = s.errIe := rfl
@[simp] theorem placeCommand_sizeL (w : Word) : (placeCommand w s).sizeL = s.sizeL := rfl
@[simp] theorem placeCommand_lastCmd (w : Word) : (placeCommand w s).lastCmd = s.lastCmd := rfl
@[simp] theorem placeCommand_done (w : Word) : (placeCommand w s).done = s.done := rfl
@[simp] theorem placeCommand_errCode (w : Word) : (placeCommand w s).errCode = s.errCode := rfl
@[simp] theorem placeCommand_errMulti (w : Word) : (placeCommand w s).errMulti = s.errMulti := rfl
@[simp] theorem placeCommand_errAddr (w : Word) : (placeCommand w s).errAddr = s.errAddr := rfl
@[simp] theorem placeCommand_errData (w : Word) : (placeCommand w s).errData = s.errData := rfl
@[simp] theorem placeCommand_busy (w : Word) : (placeCommand w s).busy = false := rfl
@[simp] theorem placeCommand_pass (w : Word) : (placeCommand w s).pass = s.pass := rfl
@[simp] theorem placeCommand_seq (w : Word) : (placeCommand w s).seq = s.seq := rfl
@[simp] theorem placeCommand_data (w : Word) : (placeCommand w s).data = s.data := rfl
@[simp] theorem placeCommand_resets (w : Word) : (placeCommand w s).resets = s.resets := rfl
@[simp] theorem placeCommand_rdata (w : Word) : (placeCommand w s).rdata = s.rdata := rfl
@[simp] theorem placeCommand_inputs (w : Word) : (placeCommand w s).inputs = .host (cmdWrite w) :: s.inputs := rfl

end Sys2Proof.Machine
end

