-- ==== Sys2Proof/Laws/Memory.lean ====
section
/-! SUPPORT. The data RAM: reading after writing, and the canonical form. -/

namespace Sys2Proof.Machine

/-! ### Reading -/

@[simp] theorem lookup_nil (a : Nat) : Memory.lookup [] a = none := rfl

theorem lookup_cons (c : Host.Cell) (m : Memory) (a : Nat) :
    Memory.lookup (c :: m) a = if c.1 = a then some c.2 else Memory.lookup m a := rfl

theorem lookup_append (m n : Memory) (a : Nat) :
    Memory.lookup (m ++ n) a = (Memory.lookup m a).or (Memory.lookup n a) := by
  induction m with
  | nil => simp
  | cons c m ih =>
    rw [List.cons_append, lookup_cons, lookup_cons, ih]
    split <;> simp

theorem lookup_filter (p : Nat → Bool) (m : Memory) (a : Nat) :
    Memory.lookup (m.filter (fun c => p c.1)) a = if p a then Memory.lookup m a else none := by
  induction m with
  | nil => simp
  | cons c m ih =>
    by_cases hc : p c.1 = true
    · rw [List.filter_cons_of_pos (by simpa using hc), lookup_cons, lookup_cons, ih]
      by_cases ha : c.1 = a
      · rw [if_pos ha, ← ha, if_pos hc, if_pos rfl]
      · simp [ha]
    · rw [List.filter_cons_of_neg (by simpa using hc), lookup_cons, ih]
      by_cases ha : c.1 = a
      · subst ha; simp [hc]
      · simp [ha]

theorem lookup_writeByte (m : Memory) (a b : Nat) (v : Byte) :
    (m.writeByte a v).lookup b = if b = a then some v else m.lookup b := by
  induction m with
  | nil => simp [Memory.writeByte, lookup_cons, eq_comm]
  | cons c m ih =>
    simp only [Memory.writeByte]
    split
    · rw [lookup_cons]; simp [eq_comm]
    · split
      · rename_i h; subst h; rw [lookup_cons, lookup_cons]; simp only [eq_comm]; split <;> simp [*]
      · rename_i h; rw [lookup_cons, lookup_cons, ih]
        by_cases hb : b = a
        · subst hb; simp [h]
        · simp [hb]

theorem lookup_writeWord (m : Memory) (a b : Nat) (w : Word) :
    (m.writeWord a w).lookup b =
      if b = a + 3 then some (w.extractLsb' 24 8) else if b = a + 2 then some (w.extractLsb' 16 8)
      else if b = a + 1 then some (w.extractLsb' 8 8) else if b = a then some (w.extractLsb' 0 8)
      else m.lookup b := by
  simp [Memory.writeWord, lookup_writeByte]

/-- Reading a byte depends on its listing and on the reset count alone. -/
theorem readByte_congr {s t : State} {a : Nat} (hr : t.resets = s.resets) (h : t.data.lookup a = s.data.lookup a) :
    t.readByte a = s.readByte a := by
  simp [State.readByte, hr, h]

theorem readWord_congr {s t : State} {a : Nat} (h : ∀ i, i < 4 → t.readByte (a + i) = s.readByte (a + i)) :
    t.readWord a = s.readWord a := by
  have h0 := h 0 (by omega); have h1 := h 1 (by omega); have h2 := h 2 (by omega); have h3 := h 3 (by omega)
  simp only [Nat.add_zero] at h0
  simp [State.readWord, h0, h1, h2, h3]

theorem entry_congr {s t : State} {k : Nat} (h : ∀ i, i < 8 → t.readByte (entryOffset k + i) = s.readByte (entryOffset k + i)) :
    t.entry k = s.entry k := by
  have h1 : t.readWord (entryOffset k) = s.readWord (entryOffset k) := readWord_congr fun i hi => h i (by omega)
  have h2 : t.readWord (entryOffset k + 4) = s.readWord (entryOffset k + 4) :=
    readWord_congr fun i hi => by rw [Nat.add_assoc]; exact h (4 + i) (by omega)
  simp [State.entry, h1, h2]

/-- A state with the same data RAM since the same reset has the same entries. -/
theorem entry_of_data_eq {s t : State} (hd : t.data = s.data) (hr : t.resets = s.resets) : t.entry = s.entry := by
  funext k
  exact entry_congr fun i _ => readByte_congr hr (by rw [hd])

/-! ### The host's word store (R109) -/

theorem readWord_storeWord (s : State) (a : Nat) (w : Word) : (s.storeWord a w).readWord a = w := by
  have h : ∀ i, i < 4 → (s.storeWord a w).readByte (a + i) = w.extractLsb' (8 * i) 8 := by
    intro i hi
    rcases i with _ | _ | _ | _ | i
    · simp [State.readByte, lookup_writeWord]
    · simp [State.readByte, lookup_writeWord]
    · simp [State.readByte, lookup_writeWord]
    · simp [State.readByte, lookup_writeWord]
    · omega
  have h0 := h 0 (by omega); have h1 := h 1 (by omega); have h2 := h 2 (by omega); have h3 := h 3 (by omega)
  simp only [Nat.add_zero, Nat.mul_zero, Nat.mul_one, Nat.reduceMul] at h0 h1 h2 h3
  rw [State.readWord, h0, h1, h2, h3, wordOfBytes_lanes]

theorem readByte_storeWord_outside (s : State) (a b : Nat) (w : Word) (h : b < a ∨ a + 4 ≤ b) :
    (s.storeWord a w).readByte b = s.readByte b := by
  apply readByte_congr (storeWord_resets s a w)
  rw [storeWord_data, lookup_writeWord]
  rw [if_neg (by omega), if_neg (by omega), if_neg (by omega), if_neg (by omega)]

/-! ### The engine's buffer store (R14, R54) -/

theorem lookup_wordCells (a b : Nat) (w : Word) :
    Memory.lookup (wordCells a w) b = if a ≤ b ∧ b < a + 4 then some (w.extractLsb' (8 * (b - a)) 8) else none := by
  simp only [wordCells, lookup_cons, lookup_nil]
  by_cases h : a ≤ b ∧ b < a + 4
  · rw [if_pos h]
    obtain ⟨i, rfl⟩ : ∃ i, b = a + i := ⟨b - a, by omega⟩
    have : i < 4 := by omega
    interval_cases i <;> simp
  · rw [if_neg h, if_neg (by omega), if_neg (by omega), if_neg (by omega), if_neg (by omega)]

theorem lookup_entryCells (k b : Nat) (c : Cplx) :
    Memory.lookup (entryCells k c) b =
      if entryOffset k ≤ b ∧ b < entryOffset k + 4 then some (c.re.extractLsb' (8 * (b - entryOffset k)) 8)
      else if entryOffset k + 4 ≤ b ∧ b < entryOffset k + 8 then
        some (c.im.extractLsb' (8 * (b - (entryOffset k + 4))) 8)
      else none := by
  rw [entryCells, lookup_append, lookup_wordCells, lookup_wordCells]
  split
  · simp
  · simp [Nat.add_assoc]

theorem bufferCells_succ (N : Nat) (D : Nat → Cplx) :
    bufferCells (N + 1) D = bufferCells N D ++ entryCells N (D N) := by
  simp [bufferCells, List.range_succ]

theorem lookup_bufferCells_outside (N : Nat) (D : Nat → Cplx) (b : Nat) (h : b < dataBase ∨ entryOffset N ≤ b) :
    Memory.lookup (bufferCells N D) b = none := by
  induction N with
  | zero => rfl
  | succ N ih =>
    rw [bufferCells_succ, lookup_append, ih (by simp only [entryOffset] at *; omega), lookup_entryCells,
      if_neg (by simp only [entryOffset] at *; omega), if_neg (by simp only [entryOffset] at *; omega)]
    rfl

theorem lookup_bufferCells_inside (N : Nat) (D : Nat → Cplx) (k i : Nat) (hk : k < N) (hi : i < 8) :
    Memory.lookup (bufferCells N D) (entryOffset k + i) = Memory.lookup (entryCells k (D k)) (entryOffset k + i) := by
  induction N with
  | zero => omega
  | succ N ih =>
    rw [bufferCells_succ, lookup_append]
    by_cases h : k = N
    · subst h
      rw [lookup_bufferCells_outside _ _ _ (by simp only [entryOffset]; omega)]
      rfl
    · rw [ih (by omega), lookup_entryCells N, if_neg (by simp only [entryOffset]; omega),
        if_neg (by simp only [entryOffset]; omega)]
      simp

theorem lookup_storeBuffer (s : State) (D : Nat → Cplx) (b : Nat) :
    (s.storeBuffer D).data.lookup b =
      if b < dataBase ∨ entryOffset s.size ≤ b then s.data.lookup b else Memory.lookup (bufferCells s.size D) b := by
  have h1 := lookup_filter (fun x => decide (x < dataBase)) s.data b
  have h2 := lookup_filter (fun x => decide (entryOffset s.size ≤ x)) s.data b
  simp only [State.storeBuffer, lookup_append, h1, h2]
  by_cases hb : b < dataBase
  · have : ¬ entryOffset s.size ≤ b := by simp only [entryOffset]; omega
    rw [lookup_bufferCells_outside _ _ _ (.inl hb)]
    simp [hb, this]
  · by_cases he : entryOffset s.size ≤ b
    · rw [lookup_bufferCells_outside _ _ _ (.inr he)]
      simp [hb, he]
    · simp [hb, he]

theorem readByte_storeBuffer_outside (s : State) (D : Nat → Cplx) (b : Nat)
    (h : b < dataBase ∨ entryOffset s.size ≤ b) : (s.storeBuffer D).readByte b = s.readByte b := by
  apply readByte_congr (storeBuffer_resets s D)
  rw [lookup_storeBuffer, if_pos h]

theorem readByte_storeBuffer_inside (s : State) (D : Nat → Cplx) (k i : Nat) (hk : k < s.size) (hi : i < 8) :
    (s.storeBuffer D).readByte (entryOffset k + i) =
      if i < 4 then (D k).re.extractLsb' (8 * i) 8 else (D k).im.extractLsb' (8 * (i - 4)) 8 := by
  have hout : ¬ (entryOffset k + i < dataBase ∨ entryOffset s.size ≤ entryOffset k + i) := by
    simp only [entryOffset]; omega
  simp only [State.readByte, lookup_storeBuffer, if_neg hout, lookup_bufferCells_inside _ _ _ _ hk hi,
    lookup_entryCells]
  by_cases h4 : i < 4
  · rw [if_pos (by omega), if_pos h4]
    simp
  · rw [if_neg (by omega), if_pos (by omega), if_neg h4]
    simp only
    congr 2
    omega

/-- A stored buffer reads back (R14). -/
theorem entry_storeBuffer (s : State) (D : Nat → Cplx) (k : Nat) (hk : k < s.size) :
    (s.storeBuffer D).entry k = D k := by
  have h : ∀ i, i < 8 → _ := fun i hi => readByte_storeBuffer_inside s D k i hk hi
  have hre : (s.storeBuffer D).readWord (entryOffset k) = (D k).re := by
    have h0 := h 0 (by omega); have h1 := h 1 (by omega); have h2 := h 2 (by omega); have h3 := h 3 (by omega)
    simp only [Nat.add_zero, Nat.mul_zero, Nat.mul_one, Nat.reduceMul, Nat.reduceLT, if_true] at h0 h1 h2 h3
    rw [State.readWord, h0, h1, h2, h3, wordOfBytes_lanes]
  have him : (s.storeBuffer D).readWord (entryOffset k + 4) = (D k).im := by
    have h0 := h 4 (by omega); have h1 := h 5 (by omega); have h2 := h 6 (by omega); have h3 := h 7 (by omega)
    simp only [Nat.reduceSub, Nat.mul_zero, Nat.mul_one, Nat.reduceMul, Nat.reduceLT, if_false] at h0 h1 h2 h3
    rw [State.readWord, Nat.add_assoc, Nat.add_assoc, Nat.add_assoc, h0, h1, h2, h3, wordOfBytes_lanes]
  rw [State.entry, hre, him]

/-- Entries from N on keep their contents (R54). -/
theorem entry_storeBuffer_beyond (s : State) (D : Nat → Cplx) (k : Nat) (hk : s.size ≤ k) :
    (s.storeBuffer D).entry k = s.entry k :=
  entry_congr fun i _ => readByte_storeBuffer_outside s D _ (.inr (by simp only [entryOffset]; omega))

/-! ### The canonical form -/

theorem wf_iff {m : Memory} : Memory.wf m = true ↔
    m.Pairwise (fun c d => c.1 < d.1) ∧ ∀ c ∈ m, dataBase ≤ c.1 ∧ c.1 < 0x20000 := by
  simp [Memory.wf]

theorem mem_writeByte {m : Memory} {a : Nat} {v : Byte} {c : Host.Cell} (h : c ∈ m.writeByte a v) :
    c = (a, v) ∨ c ∈ m := by
  induction m with
  | nil => simpa [Memory.writeByte] using h
  | cons d m ih =>
    simp only [Memory.writeByte] at h
    split at h
    · simpa using h
    · split at h
      · rcases List.mem_cons.1 h with h | h
        · exact .inl h
        · exact .inr (List.mem_cons_of_mem _ h)
      · rcases List.mem_cons.1 h with h | h
        · exact .inr (h ▸ List.mem_cons_self)
        · exact (ih h).imp_right (List.mem_cons_of_mem _)

theorem wf_writeByte {m : Memory} {a : Nat} {v : Byte} (hm : Memory.wf m = true) (h1 : dataBase ≤ a) (h2 : a < 0x20000) :
    Memory.wf (m.writeByte a v) = true := by
  rw [wf_iff] at hm ⊢
  refine ⟨?_, fun c hc => ?_⟩
  · obtain ⟨hs, -⟩ := hm
    induction m with
    | nil => simp [Memory.writeByte]
    | cons d m ih =>
      obtain ⟨hd, hs'⟩ := List.pairwise_cons.1 hs
      simp only [Memory.writeByte]
      split
      · rename_i hlt
        refine List.pairwise_cons.2 ⟨fun c hc => ?_, hs⟩
        rcases List.mem_cons.1 hc with rfl | hc
        · exact hlt
        · exact lt_trans hlt (hd c hc)
      · split
        · rename_i heq
          exact List.pairwise_cons.2 ⟨fun c hc => by rw [← heq]; exact hd c hc, hs'⟩
        · rename_i hlt heq
          refine List.pairwise_cons.2 ⟨fun c hc => ?_, ih hs'⟩
          rcases mem_writeByte hc with rfl | hc
          · simp only; omega
          · exact hd c hc
  · rcases mem_writeByte hc with rfl | hc
    · exact ⟨h1, h2⟩
    · exact hm.2 c hc

theorem wf_writeWord {m : Memory} {a : Nat} {w : Word} (hm : Memory.wf m = true) (h1 : dataBase ≤ a)
    (h2 : a + 3 < 0x20000) : Memory.wf (m.writeWord a w) = true :=
  wf_writeByte (wf_writeByte (wf_writeByte (wf_writeByte hm h1 (by omega)) (by omega) (by omega)) (by omega) (by omega))
    (by omega) (by omega)

theorem mem_writeWord {m : Memory} {a : Nat} {w : Word} {c : Host.Cell} (h : c ∈ m.writeWord a w) :
    (a ≤ c.1 ∧ c.1 < a + 4) ∨ c ∈ m := by
  rcases mem_writeByte h with rfl | h
  · exact .inl (by simp)
  rcases mem_writeByte h with rfl | h
  · exact .inl (by simp)
  rcases mem_writeByte h with rfl | h
  · exact .inl (by simp)
  rcases mem_writeByte h with rfl | h
  · exact .inl (by simp)
  exact .inr h

theorem mem_entryCells {k : Nat} {v : Cplx} {c : Host.Cell} (h : c ∈ entryCells k v) :
    entryOffset k ≤ c.1 ∧ c.1 < entryOffset (k + 1) := by
  simp only [entryCells, wordCells, List.cons_append, List.nil_append, List.mem_cons, List.not_mem_nil, or_false] at h
  rcases h with rfl | rfl | rfl | rfl | rfl | rfl | rfl | rfl <;> simp only [entryOffset] <;> omega

theorem mem_bufferCells {N : Nat} {D : Nat → Cplx} {c : Host.Cell} (h : c ∈ bufferCells N D) :
    dataBase ≤ c.1 ∧ c.1 < entryOffset N := by
  obtain ⟨k, hk, hc⟩ := List.mem_flatMap.1 h
  have := mem_entryCells hc
  have := List.mem_range.1 hk
  simp only [entryOffset] at *
  omega

theorem pairwise_entryCells (k : Nat) (v : Cplx) : (entryCells k v).Pairwise (fun c d => c.1 < d.1) := by
  simp only [entryCells, wordCells, List.cons_append, List.nil_append, List.pairwise_cons, List.mem_cons,
    List.not_mem_nil, or_false, forall_eq_or_imp, forall_eq, List.Pairwise.nil, and_true, false_imp_iff, implies_true]
  omega

theorem pairwise_bufferCells (N : Nat) (D : Nat → Cplx) : (bufferCells N D).Pairwise (fun c d => c.1 < d.1) := by
  induction N with
  | zero => exact List.Pairwise.nil
  | succ N ih =>
    rw [bufferCells_succ]
    refine List.pairwise_append.2 ⟨ih, pairwise_entryCells _ _, fun c hc d hd => ?_⟩
    have := mem_bufferCells hc
    have := mem_entryCells hd
    omega

theorem mem_storeBuffer {s : State} {D : Nat → Cplx} {c : Host.Cell} (h : c ∈ (s.storeBuffer D).data) :
    (dataBase ≤ c.1 ∧ c.1 < entryOffset s.size) ∨ c ∈ s.data := by
  simp only [State.storeBuffer, List.mem_append, List.mem_filter] at h
  rcases h with (⟨h, -⟩ | h) | ⟨h, -⟩
  · exact .inr h
  · exact .inl (mem_bufferCells h)
  · exact .inr h

theorem wf_storeBuffer {s : State} {D : Nat → Cplx} (hm : Memory.wf s.data = true) (hN : s.size ≤ 8192) :
    Memory.wf (s.storeBuffer D).data = true := by
  rw [wf_iff] at hm ⊢
  refine ⟨?_, fun c hc => ?_⟩
  · refine List.pairwise_append.2 ⟨List.pairwise_append.2 ⟨hm.1.filter _, pairwise_bufferCells _ _, ?_⟩,
      hm.1.filter _, ?_⟩
    · intro c hc d hd
      have h1 := (hm.2 c (List.mem_filter.1 hc).1).1
      have h2 := of_decide_eq_true (List.mem_filter.1 hc).2
      omega
    · intro c hc d hd
      have h3 := of_decide_eq_true (List.mem_filter.1 hd).2
      rcases List.mem_append.1 hc with hc | hc
      · have h2 := of_decide_eq_true (List.mem_filter.1 hc).2
        simp only [entryOffset] at h3
        omega
      · have := mem_bufferCells hc
        omega
  · rcases mem_storeBuffer hc with h | h
    · simp only [entryOffset, dataBase] at *
      omega
    · exact hm.2 c h

@[simp] theorem wf_reset : Memory.wf State.reset.data = true := rfl

end Sys2Proof.Machine
end

