-- ==== Sys2Proof/Laws/Bus.lean ====
section
/-! SUPPORT. What issuing a command and a host transaction can do. -/

namespace Sys2Proof.Machine

/-! ### Issuing a command -/

theorem issueError_busy {s : State} (w : Word) (h : s.busy = true) : issueError w s = some .busy := by
  simp [issueError, h]

theorem issueError_encode {s : State} (i : Instr) (h : s.busy = false) :
    issueError (encode i) s = if i.wellFormed s.sizeL.toNat then none else some .illegalCmd := by
  simp [issueError, h, legal_encode]

theorem issue_busy {s : State} (i : Instr) (ps : List Pass) (h : s.busy = true) :
    issue i ps s = raise .busy (cmdWrite (encode i)) s := by
  simp [issue, issueError_busy, h, refuse, cmdWrite]

theorem issue_illegal {s : State} {i : Instr} (ps : List Pass) (h : s.busy = false)
    (hi : i.wellFormed s.sizeL.toNat = false) : issue i ps s = raise .illegalCmd (cmdWrite (encode i)) s := by
  simp [issue, issueError_encode, h, hi, refuse, cmdWrite]

theorem issue_accepted {s : State} {i : Instr} (ps : List Pass) (h : s.busy = false)
    (hi : i.wellFormed s.sizeL.toNat = true) : issue i ps s = accept (encode i) ps s := by
  simp [issue, issueError_encode, h, hi]

theorem map_stages (L : Nat) : stages L = (List.range' 1 L).map .bf := by
  rw [stages, List.range'_eq_map_range, List.map_map]
  exact List.map_congr_left fun i _ => by simp [Nat.add_comm]

/-- Every command is issued with its sequence of R351. -/
theorem exec_eq_issue (i : Instr) (s : State) : exec i s = .next (issue i (passes i s.sizeL.toNat) s) := by
  cases i <;>
    simp [exec, execBitrev, execBfly, execNorm, execConj, execFwd, execInv, passes, bitrevPasses, bflyPasses,
      normPasses, conjPasses, fwdPasses, invPasses, map_stages]

theorem exec_accepted {s : State} {i : Instr} (h : s.busy = false) (hi : i.wellFormed s.sizeL.toNat = true) :
    exec i s = .next (accept (encode i) (passes i s.sizeL.toNat) s) := by
  rw [exec_eq_issue, issue_accepted _ h hi]

theorem passes_length_pos (i : Instr) (L : Nat) : 0 < (passes i L).length := by
  cases i <;> simp [passes]

theorem passes_length_le (i : Instr) (L : Nat) : (passes i L).length ≤ L + 4 := by
  cases i <;> simp [passes]

/-! ### The place an offset names -/

theorem target_cmdOffset : target cmdOffset = .cmd := by decide

/-- An aligned offset of the DATA window names the entry part it belongs to (R107). -/
theorem target_data {off : BitVec 18} {k : Nat} {p : Part} (hk : k < 8192) (h : off.toNat = partOffset k p) :
    target off = .data k p := by
  have hb : off.getLsbD 2 = (partOffset k p).testBit 2 := by rw [← h]; rfl
  have hp : partOf off = p := by
    rw [partOf, hb]
    cases p with
    | re =>
      have : (partOffset k .re).testBit 2 = false := by
        simp only [partOffset, entryOffset, dataBase, Nat.testBit_eq_decide_div_mod_eq, decide_eq_false_iff_not]; omega
      rw [this]; rfl
    | im =>
      have : (partOffset k .im).testBit 2 = true := by
        simp only [partOffset, entryOffset, dataBase, Nat.testBit_eq_decide_div_mod_eq, decide_eq_true_eq]; omega
      rw [this]; rfl
  have hr : 0x10000 ≤ off.toNat ∧ off.toNat < 0x20000 ∧ (off.toNat - 0x10000) / 8 = k := by
    rw [h]; cases p <;> simp only [partOffset, entryOffset, dataBase] <;> omega
  rw [target, if_neg (by omega), if_pos hr.2.1, Nat.shiftRight_eq_div_pow, hp]
  simp [hr.2.2]

theorem aligned_data {off : BitVec 18} {k : Nat} {p : Part} (h : off.toNat = partOffset k p) :
    off.extractLsb' 0 2 = 0#2 := by
  apply BitVec.eq_of_toNat_eq
  rw [BitVec.extractLsb'_toNat, h]
  cases p <;> simp only [partOffset, entryOffset, dataBase, Nat.shiftRight_zero, BitVec.toNat_ofNat] <;> omega

/-! ### One transaction -/

/-- A host transaction issues a command, is refused by the first check that applies, or takes effect. -/
theorem transact_cases (t : Txn) (s : State) :
    (∃ i, commandOf t = some i ∧ transact t s = .next (issue i (passes i s.sizeL.toNat) s)) ∨
    (∃ e, commandOf t = none ∧ firstError t s = some e ∧ transact t s = .next (refuse e t s)) ∨
    (commandOf t = none ∧ firstError t s = none ∧ transact t s = .next (access t s)) := by
  unfold transact
  split
  · rename_i i h
    exact .inl ⟨i, h, exec_eq_issue i s⟩
  · rename_i h
    split
    · rename_i e he
      exact .inr (.inl ⟨e, h, he, rfl⟩)
    · rename_i he
      exact .inr (.inr ⟨h, he, rfl⟩)

/-- A host transaction always goes on. -/
theorem transact_goesOn (t : Txn) (s : State) : GoesOn (transact t s) := by
  rcases transact_cases t s with ⟨i, -, h⟩ | ⟨e, -, -, h⟩ | ⟨-, -, h⟩ <;> exact ⟨_, h⟩

/-- A transaction that issues a command is the CMD write of the command's word. -/
theorem eq_cmdWrite_of_commandOf {t : Txn} {i : Instr} (h : commandOf t = some i) : t = cmdWrite (encode i) := by
  obtain ⟨off, sz, op⟩ := t
  cases op with
  | read => simp [commandOf] at h
  | write w =>
    simp only [commandOf] at h
    split at h
    · rename_i hc
      obtain ⟨rfl, rfl⟩ := hc
      have hw : decodeWord w = .ok i := by
        cases hd : decodeWord w with
        | ok j => rw [hd] at h; simp only [Except.toOption, Option.some.injEq] at h; rw [h]
        | error e => rw [hd] at h; simp [Except.toOption] at h
      rw [encode_of_decode hw]; rfl
    · cases h

theorem commandOf_cmdWrite {w : Word} {i : Instr} (h : decodeWord w = .ok i) : commandOf (cmdWrite w) = some i := by
  simp [commandOf, cmdWrite, h, Except.toOption]

theorem transact_command {w : Word} {i : Instr} (h : decodeWord w = .ok i) (s : State) :
    transact (cmdWrite w) s = exec i s := by
  simp [transact, commandOf_cmdWrite h]

/-- The checks of R402 give a CMD write the error that issuing it gives (R350). -/
theorem firstError_cmdWrite (w : Word) (s : State) : firstError (cmdWrite w) s = issueError w s := by
  have h1 : target (cmdWrite w).offset = .cmd := target_cmdOffset
  have h2 : (cmdWrite w).misaligned = false := by
    have : cmdOffset.extractLsb' 0 2 = 0#2 := by decide
    simp [Txn.misaligned, cmdWrite, this]
  cases hb : s.busy <;>
    simp [firstError, h1, h2, hb, busyGuarded, outOfRange, valueError, issueError, Target.readOnly] <;>
    simp [cmdWrite, Txn.isWrite]

/-! ### What the checks let through -/

theorem firstError_none {t : Txn} {s : State} (h : firstError t s = none) :
    t.size = .four ∧ t.misaligned = false ∧ target t.offset ≠ .unmapped ∧
    (t.isWrite = true → (target t.offset).readOnly = false) ∧
    (s.busy = true → busyGuarded t = false) ∧ outOfRange t s = false ∧ valueError t s = none := by
  unfold firstError at h
  repeat' split at h
  all_goals first
    | cases h
    | (refine ⟨?_, ?_, ?_, ?_, ?_, ?_, h⟩ <;> simp_all)

end Sys2Proof.Machine
end

