-- ==== Sys2Proof/Laws/Checks.lean ====
section
/-! SUPPORT. The checks of R402 by the numbers of the offset, and what a transaction does by its check. -/

namespace Sys2Proof.Machine

theorem misaligned_iff (t : Txn) : t.misaligned = true ↔ t.offset.toNat % 4 ≠ 0 := by
  rw [Txn.misaligned, decide_eq_true_eq, not_iff_not, ← BitVec.toNat_inj, BitVec.extractLsb'_toNat]
  simp

/-- The aligned offsets below 0x10000 and what they name (R61, R112). -/
theorem csrTarget_cases (n : Nat) (h4 : n % 4 = 0) :
    (n = 0x000 ∧ csrTarget n = .id) ∨ (n = 0x004 ∧ csrTarget n = .caps) ∨ (n = 0x008 ∧ csrTarget n = .ctrl) ∨
    (n = 0x00C ∧ csrTarget n = .size) ∨ (n = 0x010 ∧ csrTarget n = .cmd) ∨ (n = 0x014 ∧ csrTarget n = .status) ∨
    (n = 0x018 ∧ csrTarget n = .err) ∨ (n = 0x01C ∧ csrTarget n = .errAddr) ∨ (n = 0x020 ∧ csrTarget n = .errData) ∨
    (0x020 < n ∧ csrTarget n = .unmapped) := by
  rcases Nat.lt_or_ge 32 n with h32 | h32
  · refine .inr (.inr (.inr (.inr (.inr (.inr (.inr (.inr (.inr ⟨h32, ?_⟩))))))))
    unfold csrTarget; repeat rw [if_neg (by omega)]
  · interval_cases n <;> first | omega | simp [csrTarget]

/-- The region of an offset and the entry it names (R103). -/
theorem target_cases (off : BitVec 18) :
    (off.toNat < 0x10000 ∧ target off = csrTarget off.toNat) ∨
    (0x10000 ≤ off.toNat ∧ off.toNat < 0x20000 ∧ target off = .data ((off.toNat - 0x10000) / 8) (partOf off)) ∨
    (0x20000 ≤ off.toNat ∧ off.toNat < 0x30000 ∧ target off = .root ((off.toNat - 0x20000) / 8) (partOf off)) ∨
    (0x30000 ≤ off.toNat ∧ target off = .rev ((off.toNat - 0x30000) / 4)) := by
  unfold target
  simp only [Nat.shiftRight_eq_div_pow]
  rcases Nat.lt_or_ge off.toNat 0x10000 with h | h
  · exact .inl ⟨h, if_pos h⟩
  rcases Nat.lt_or_ge off.toNat 0x20000 with h2 | h2
  · exact .inr (.inl ⟨h, h2, by rw [if_neg (by omega), if_pos h2]⟩)
  rcases Nat.lt_or_ge off.toNat 0x30000 with h3 | h3
  · exact .inr (.inr (.inl ⟨h2, h3, by rw [if_neg (by omega), if_neg (by omega), if_pos h3]⟩))
  · exact .inr (.inr (.inr ⟨h3, by rw [if_neg (by omega), if_neg (by omega), if_neg (by omega)]⟩))

/-- `part` is bit 2 of the offset (R107). -/
theorem partOf_of_mod {off : BitVec 18} :
    (off.toNat % 8 = 0 → partOf off = .re) ∧ (off.toNat % 8 = 4 → partOf off = .im) := by
  have hb : off.getLsbD 2 = decide (off.toNat / 4 % 2 = 1) := by
    rw [BitVec.getLsbD, Nat.testBit_eq_decide_div_mod_eq]
  constructor <;> intro h <;> unfold partOf <;> rw [hb]
  · rw [if_neg]; rw [decide_eq_true_eq]; omega
  · rw [if_pos]; rw [decide_eq_true_eq]; omega

/-- The machine's checks are the checks of R402 in the rule's own words. -/
theorem firstError_eq_ruleError (t : Txn) (s : State) : firstError t s = ruleError t s := by
  obtain ⟨off, z, op⟩ := t
  unfold firstError ruleError
  by_cases hz : z = .four
  swap
  · simp [hz]
  subst hz
  have hmis := misaligned_iff ⟨off, .four, op⟩
  by_cases hm : off.toNat % 4 = 0
  swap
  · simp [hmis.2 hm, hm]
  have hm' : Txn.misaligned ⟨off, .four, op⟩ = false := by
    rw [← Bool.not_eq_true, hmis]; exact not_not_intro hm
  rcases target_cases off with ⟨h, ht⟩ | ⟨h1, h2, ht⟩ | ⟨h1, h2, ht⟩ | ⟨h1, ht⟩
  · rcases csrTarget_cases _ hm with ⟨hn, hc⟩ | ⟨hn, hc⟩ | ⟨hn, hc⟩ | ⟨hn, hc⟩ | ⟨hn, hc⟩ | ⟨hn, hc⟩ | ⟨hn, hc⟩ |
      ⟨hn, hc⟩ | ⟨hn, hc⟩ | ⟨hn, hc⟩ <;> rw [hc] at ht <;> cases op <;> cases s.busy <;>
      simp [ht, hn, hm', hm, Target.readOnly, busyGuarded, outOfRange, valueError, Txn.isWrite, Txn.wdata] <;>
      first | omega | (split <;> simp_all)
  · have e1 : ¬ (0x020 < off.toNat ∧ off.toNat < 0x10000) := by omega
    have e2 : ¬ 0x20000 ≤ off.toNat := by omega
    have e3 : ¬ 0x30000 ≤ off.toNat := by omega
    have e4 : off.toNat ∉ [0x000, 0x004, 0x01C, 0x020] := by simp; omega
    have e5 : off.toNat ≠ 0x00C ∧ off.toNat ≠ 0x010 := by omega
    cases op <;> cases s.busy <;>
      simp [ht, hm', hm, h1, h2, e1, e2, e3, e4, e5, Target.readOnly, busyGuarded, outOfRange, valueError, Txn.isWrite,
        Txn.wdata]
  · have e1 : ¬ (0x020 < off.toNat ∧ off.toNat < 0x10000) := by omega
    have e2 : ¬ off.toNat < 0x20000 := by omega
    have e3 : ¬ 0x30000 ≤ off.toNat := by omega
    have e4 : off.toNat ∉ [0x00C, 0x010] := by simp; omega
    cases op <;> cases s.busy <;>
      simp [ht, hm', hm, h1, h2, e1, e2, e3, Target.readOnly, busyGuarded, outOfRange, valueError, Txn.isWrite,
        Txn.wdata]
  · have e1 : ¬ (0x020 < off.toNat ∧ off.toNat < 0x10000) := by omega
    have e2 : ¬ off.toNat < 0x20000 := by omega
    have e3 : ¬ off.toNat < 0x30000 := by omega
    have e4 : 0x20000 ≤ off.toNat := by omega
    cases op <;> cases s.busy <;>
      simp [ht, hm', hm, h1, e1, e2, e3, e4, Target.readOnly, busyGuarded, outOfRange, valueError, Txn.isWrite,
        Txn.wdata]

/-- A check that applies refuses the transaction, a CMD write of a command's word included. -/
theorem transact_of_firstError {t : Txn} {s : State} {e : ErrCode} (h : firstError t s = some e) :
    transact t s = .next (refuse e t s) := by
  rcases transact_cases t s with ⟨i, hi, hx⟩ | ⟨e', -, he, hx⟩ | ⟨-, he, -⟩
  · have ht := eq_cmdWrite_of_commandOf hi
    rw [ht, firstError_cmdWrite] at h
    rw [hx, issue, h, ht]
  · rw [h] at he; cases he; exact hx
  · rw [h] at he; cases he

/-- A transaction that no check refuses takes effect, unless it writes CMD. -/
theorem transact_of_passed {t : Txn} {s : State} (h : firstError t s = none)
    (hc : ¬ (t.isWrite = true ∧ t.offset = cmdOffset)) : transact t s = .next (access t s) := by
  rcases transact_cases t s with ⟨i, hi, hx⟩ | ⟨e', -, he, hx⟩ | ⟨-, -, hx⟩
  · have := eq_cmdWrite_of_commandOf hi
    subst this
    exact absurd ⟨rfl, rfl⟩ hc
  · rw [h] at he; cases he
  · exact hx

/-- No check refuses a 4-byte read of a register. -/
theorem firstError_register_read (off : BitVec 18) (s : State) (h : off.toNat ≤ 0x20) (h4 : off.toNat % 4 = 0) :
    firstError (readAt off) s = none := by
  have h1 : ¬ (0x020 < off.toNat ∧ off.toNat < 0x10000) := by omega
  have h2 : ¬ 0x10000 ≤ off.toNat := by omega
  have h3 : ¬ 0x20000 ≤ off.toNat := by omega
  have h5 : ¬ 0x30000 ≤ off.toNat := by omega
  rw [firstError_eq_ruleError]
  simp [ruleError, readAt, Txn.isWrite, h4, h1, h2, h3, h5]

/-- An accepted write to CMD issues the command of its word (R350). -/
theorem transact_cmd_of_passed {w : Word} {s : State} (h : firstError (cmdWrite w) s = none) :
    ∃ i : Instr, decodeWord w = .ok i ∧ i.wellFormed s.sizeL.toNat = true ∧ s.busy = false ∧
      transact (cmdWrite w) s = .next (accept w (passes i s.sizeL.toNat) s) := by
  rw [firstError_cmdWrite] at h
  have hb : s.busy = false := by
    cases hb : s.busy with
    | false => rfl
    | true => rw [issueError_busy w hb] at h; cases h
  have hl : legalWord w s.sizeL.toNat = true := by
    by_contra hc
    simp [issueError, hb, hc] at h
  obtain ⟨i, hi⟩ := decodes_of_legal hl
  have hw := encode_of_decode hi
  have hwf : i.wellFormed s.sizeL.toNat = true := by rw [hw, legal_encode] at hl; exact hl
  exact ⟨i, hi, hwf, hb, by rw [transact_command hi, exec_accepted hb hwf, ← hw]⟩

/-- Everything a transaction can do, by the checks of R402 (R402, R350, R107-R112). -/
theorem transact_by_checks (t : Txn) (s : State) :
    (∃ e, firstError t s = some e ∧ transact t s = .next (refuse e t s)) ∨
    (∃ w i, t = cmdWrite w ∧ firstError t s = none ∧ decodeWord w = .ok i ∧ i.wellFormed s.sizeL.toNat = true ∧
      s.busy = false ∧ transact t s = .next (accept w (passes i s.sizeL.toNat) s)) ∨
    (firstError t s = none ∧ ¬ (t.isWrite = true ∧ t.offset = cmdOffset) ∧ transact t s = .next (access t s)) := by
  rcases hf : firstError t s with _ | e
  · by_cases hc : t.isWrite = true ∧ t.offset = cmdOffset
    · obtain ⟨w, rfl⟩ : ∃ w, t = cmdWrite w := by
        have h4 := (firstError_none hf).1
        obtain ⟨off, z, op⟩ := t
        obtain ⟨hw, ho⟩ := hc
        simp only at h4 ho
        subst h4 ho
        cases op with
        | read => simp [Txn.isWrite] at hw
        | write w => exact ⟨w, rfl⟩
      obtain ⟨i, h1, h2, h3, h4⟩ := transact_cmd_of_passed hf
      exact .inr (.inl ⟨w, i, rfl, rfl, h1, h2, h3, h4⟩)
    · exact .inr (.inr ⟨rfl, hc, transact_of_passed hf hc⟩)
  · exact .inl ⟨e, rfl, transact_of_firstError hf⟩

/-- While busy, no transaction changes the sequencer's registers, the size or the data RAM (R350, R354). -/
theorem transact_while_busy {s : State} (hb : s.busy = true) (t : Txn) : ∃ u, transact t s = .next u ∧
    u.busy = true ∧ u.seq = s.seq ∧ u.pass = s.pass ∧ u.sizeL = s.sizeL ∧ u.lmax = s.lmax ∧
    u.lastCmd = s.lastCmd ∧ u.data = s.data ∧ u.resets = s.resets ∧ u.inputs = s.inputs := by
  rcases transact_by_checks t s with ⟨e, -, h⟩ | ⟨_, _, _, _, _, _, hf, _⟩ | ⟨hn, -, h⟩
  · exact ⟨_, h, by simp [hb]⟩
  · rw [hb] at hf; cases hf
  · refine ⟨_, h, ?_⟩
    have hg := (firstError_none hn).2.2.2.2.1 hb
    unfold access
    split
    · simp [hb]
    · rename_i w hw
      have hi : t.isWrite = true := by simp [Txn.isWrite, hw]
      cases ht : target t.offset <;> simp [writeTarget, hb] <;> simp [busyGuarded, ht, hi] at hg

end Sys2Proof.Machine
end

