-- ==== Sys2Proof/Laws/Step.lean ====
section
/-! SUPPORT. What a step can do, said once. -/

namespace Sys2Proof.Machine

theorem step_host {s : State} {t : Txn} {rest : List Event} (h : s.inputs = .host t :: rest) :
    step s = transact t (s.begin rest) := by
  simp [step, advance, h, runEvent]

theorem step_engine {s : State} {rest : List Event} (h : s.inputs = .engine :: rest) :
    step s = engineStep (s.begin rest) := by
  simp [step, advance, h, runEvent]

theorem step_reset {s : State} {rest : List Event} (h : s.inputs = .reset :: rest) :
    step s = .next (resetStep (s.begin rest)) := by
  simp [step, advance, h, runEvent]

theorem step_unlisted {s : State} (h : s.inputs = []) : step s = engineStep (s.begin []) := by
  simp [step, advance, h]

/-- A step is a host transaction, a turn of the engine, or the reset step (R101). -/
theorem step_cases (s : State) :
    (∃ t rest, s.inputs = .host t :: rest ∧ step s = transact t (s.begin rest)) ∨
    (∃ rest, (s.inputs = .engine :: rest ∨ (s.inputs = [] ∧ rest = [])) ∧ step s = engineStep (s.begin rest)) ∨
    (∃ rest, s.inputs = .reset :: rest ∧ step s = .next (resetStep (s.begin rest))) := by
  match h : s.inputs with
  | [] => exact .inr (.inl ⟨[], .inr ⟨rfl, rfl⟩, step_unlisted h⟩)
  | .host t :: rest => exact .inl ⟨t, rest, rfl, step_host h⟩
  | .engine :: rest => exact .inr (.inl ⟨rest, .inl rfl, step_engine h⟩)
  | .reset :: rest => exact .inr (.inr ⟨rest, rfl, step_reset h⟩)

/-- The engine's turn while idle changes nothing. -/
theorem engineStep_idle {s : State} (h : s.busy = false) : engineStep s = .next s := by
  simp [engineStep, h]

/-- The engine's turn while busy runs the pass SEQ[PASS] (R352). -/
theorem engineStep_busy {s : State} {p : Pass} (h : s.busy = true) (hp : s.seq[s.pass.toNat]? = some p) :
    engineStep s = .next (countPass (runPass p s)) := by
  simp [engineStep, h, hp]

/-- What a turn of the engine can do, if it goes on. -/
theorem engineStep_cases {s t : State} (h : engineStep s = .next t) :
    (s.busy = false ∧ t = s) ∨
    (s.busy = true ∧ ∃ p, s.seq[s.pass.toNat]? = some p ∧ t = countPass (runPass p s)) := by
  unfold engineStep at h
  split at h
  · rename_i hb
    split at h
    · rename_i p hp
      exact .inr ⟨hb, p, hp, (Host.Outcome.next.inj h).symm⟩
    · cases h
  · rename_i hb
    exact .inl ⟨by simpa using hb, (Host.Outcome.next.inj h).symm⟩

/-- The step of a listed CMD write is the meaning of the command it holds. -/
theorem step_command {s : State} {w : Word} {i : Instr} {rest : List Event}
    (h : s.inputs = .host (cmdWrite w) :: rest) (hw : decodeWord w = .ok i) : step s = exec i (s.begin rest) := by
  rw [step_host h, transact_command hw]

end Sys2Proof.Machine
end

