-- ==== Sys2Proof/Laws/Invariant.lean ====
section
/-! SUPPORT. Each kind of step keeps the invariant of the block. -/

namespace Sys2Proof.Machine

theorem image_reserved (t : Txn) : t.image.extractLsb' 18 6 = 0#6 ∧ t.image.extractLsb' 26 5 = 0#5 := by
  have key : ∀ (b : Bool) (z : BitVec 2) (o : BitVec 18),
      (BitVec.ofBool b ++ 0#5 ++ z ++ 0#6 ++ o : Word).extractLsb' 18 6 = 0#6 ∧
      (BitVec.ofBool b ++ 0#5 ++ z ++ 0#6 ++ o : Word).extractLsb' 26 5 = 0#5 := by
    intro b z o
    constructor <;> apply BitVec.eq_of_getLsbD_eq <;> intro i hi <;>
      simp only [BitVec.getLsbD_extractLsb', BitVec.getLsbD_append] <;> interval_cases i <;> simp
  exact key _ _ _

theorem zero_reserved : (0#32 : Word).extractLsb' 18 6 = 0#6 ∧ (0#32 : Word).extractLsb' 26 5 = 0#5 := by decide

variable {s : State}

theorem inv_begin (h : Inv s) (rest : List Event) : Inv (s.begin rest) :=
  ⟨h.lmax_legal, h.size_legal, h.data_canonical, h.data_in_ram, h.pass_busy, h.pass_idle, h.done_idle, h.seq_last,
    h.record_clear, h.addr_reserved⟩

theorem inv_raise (h : Inv s) (e : ErrCode) (t : Txn) : Inv (raise e t s) := by
  have h' := h
  obtain ⟨h1, h2, h3, h4, h5, h6, h7, h8, h9, h10⟩ := h
  refine ⟨by simpa using h1, by simpa using h2, by simpa using h3, by simpa using h4, by simpa using h5,
    by simpa using h6, by simpa using h7, by simpa [SequenceOfLastCommand] using h8, by simp, ?_⟩
  rw [raise_errAddr]
  split
  · exact image_reserved t
  · exact h10

theorem inv_of_eq_but_rdata {t : State} (h : Inv s) (v : Option Word) (ht : t = { s with rdata := v }) : Inv t := by
  subst ht
  exact ⟨h.lmax_legal, h.size_legal, h.data_canonical, h.data_in_ram, h.pass_busy, h.pass_idle, h.done_idle,
    h.seq_last, h.record_clear, h.addr_reserved⟩

theorem inv_refuse (h : Inv s) (e : ErrCode) (t : Txn) : Inv (refuse e t s) := by
  unfold refuse
  split
  · exact inv_of_eq_but_rdata (inv_raise h e t) _ rfl
  · exact inv_raise h e t

theorem inv_issue (h : Inv s) (i : Instr) : Inv (issue i (passes i s.sizeL.toNat) s) := by
  unfold issue
  split
  · exact inv_refuse h _ _
  · rename_i he
    have hb : s.busy = false := by
      cases hc : s.busy with
      | false => rfl
      | true => rw [issueError_busy _ hc] at he; cases he
    have hi : i.wellFormed s.sizeL.toNat = true := by
      rw [issueError_encode i hb] at he; by_contra hc; simp [hc] at he
    exact ⟨h.lmax_legal, h.size_legal, h.data_canonical, h.data_in_ram, fun _ => passes_length_pos i _,
      fun hc => by simp at hc, fun _ => rfl,
      .inr ⟨i, s.sizeL.toNat, rfl, hi, h.size_legal.1, h.size_legal.2, rfl, fun _ => rfl⟩, h.record_clear,
      h.addr_reserved⟩

theorem size_le (h : Inv s) : s.size ≤ 2 ^ s.lmax.toNat := Nat.pow_le_pow_right (by omega) h.size_legal.2

theorem ram_le (h : Inv s) : 2 ^ s.lmax.toNat ≤ 8192 :=
  le_trans (Nat.pow_le_pow_right (by omega) h.lmax_legal.2) (by norm_num)

theorem inv_storeWord (h : Inv s) {k : Nat} (hk : k < s.size) (p : Part) (w : Word) :
    Inv (s.storeWord (partOffset k p) w) := by
  have h1 := size_le h
  have h2 := ram_le h
  have hlo : dataBase ≤ partOffset k p := by cases p <;> simp only [partOffset, entryOffset] <;> omega
  have hhi : partOffset k p + 4 ≤ entryOffset (2 ^ s.lmax.toNat) := by
    cases p <;> simp only [partOffset, entryOffset] <;> omega
  have htop : entryOffset (2 ^ s.lmax.toNat) ≤ 0x20000 := by simp only [entryOffset, dataBase]; omega
  refine ⟨h.lmax_legal, h.size_legal, wf_writeWord h.data_canonical hlo (by omega), fun c hc => ?_, h.pass_busy,
    h.pass_idle, h.done_idle, h.seq_last, h.record_clear, h.addr_reserved⟩
  rcases mem_writeWord hc with hc | hc
  · exact lt_of_lt_of_le hc.2 hhi
  · exact h.data_in_ram c hc

theorem inv_runPass (h : Inv s) (p : Pass) : Inv (runPass p s) := by
  have h1 := size_le h
  have h2 := ram_le h
  refine ⟨h.lmax_legal, h.size_legal, wf_storeBuffer h.data_canonical (by omega), fun c hc => ?_, h.pass_busy,
    h.pass_idle, h.done_idle, h.seq_last, h.record_clear, h.addr_reserved⟩
  rcases mem_storeBuffer hc with hc | hc
  · refine lt_of_lt_of_le hc.2 ?_
    simp only [entryOffset]; show _ ≤ dataBase + 8 * 2 ^ s.lmax.toNat; omega
  · exact h.data_in_ram c hc

theorem seq_length_le (h : Inv s) : s.seq.length ≤ 17 := by
  rcases h.seq_last with ⟨h0, -⟩ | ⟨i, L, -, -, -, hL, hs, -⟩
  · simp [h0]
  · have := passes_length_le i L
    have := h.lmax_legal.2
    rw [hs]; omega

theorem inv_countPass (h : Inv s) (hb : s.busy = true) : Inv (countPass s) := by
  have hlen := seq_length_le h
  have hp := h.pass_busy hb
  have hadd : (s.pass + 1#5).toNat = s.pass.toNat + 1 := by
    rw [BitVec.toNat_add]
    exact Nat.mod_eq_of_lt (by simp only [BitVec.toNat_ofNat]; omega)
  refine ⟨by simpa using h.lmax_legal, by simpa using h.size_legal, by simpa using h.data_canonical,
    by simpa using h.data_in_ram, ?_, ?_, ?_, ?_, by simpa using h.record_clear, by simpa using h.addr_reserved⟩
  · simp only [countPass_busy, countPass_pass, countPass_seq]
    split
    · intro hc; cases hc
    · intro _; omega
  · simp only [countPass_busy, countPass_pass, countPass_seq]
    split
    · intro _; assumption
    · intro hc; rw [hb] at hc; cases hc
  · simp only [countPass_busy, countPass_done]
    split
    · intro hc; cases hc
    · exact h.done_idle
  · rcases h.seq_last with ⟨h0, -⟩ | ⟨i, L, h1, h2, h3, h4, h5, h6⟩
    · rw [h0] at hp; simp at hp
    · exact .inr ⟨i, L, by simpa using h1, h2, h3, by simpa using h4, by simpa using h5,
        fun _ => by simpa using h6 hb⟩

theorem inv_writeSize (h : Inv s) {w : Word} (hb : s.busy = false) (h1 : 1 ≤ w.toNat) (h2 : w.toNat ≤ s.lmax.toNat) :
    Inv (writeSize w s) := by
  have hw : (w.extractLsb' 0 4).toNat = w.toNat := by
    rw [BitVec.extractLsb'_toNat]
    have := h.lmax_legal.2
    simp only [Nat.shiftRight_zero]
    exact Nat.mod_eq_of_lt (by omega)
  refine ⟨h.lmax_legal, by simp only [writeSize_sizeL, writeSize_lmax, hw]; exact ⟨h1, h2⟩, h.data_canonical,
    h.data_in_ram, h.pass_busy, h.pass_idle, h.done_idle, ?_, h.record_clear, h.addr_reserved⟩
  rcases h.seq_last with h0 | ⟨i, L, h1, h2, h3, h4, h5, -⟩
  · exact .inl h0
  · exact .inr ⟨i, L, h1, h2, h3, h4, h5, fun hc => by rw [writeSize_busy, hb] at hc; cases hc⟩

theorem inv_writeTarget (h : Inv s) {t : Txn} {w : Word} (hop : t.op = .write w) (hn : firstError t s = none) :
    Inv (writeTarget w s (target t.offset)) := by
  obtain ⟨-, -, -, -, hbusy, hrange, hval⟩ := firstError_none hn
  unfold writeTarget
  split
  · exact ⟨h.lmax_legal, h.size_legal, h.data_canonical, h.data_in_ram, h.pass_busy, h.pass_idle, h.done_idle,
      h.seq_last, h.record_clear, h.addr_reserved⟩
  · rename_i ht
    have hb : s.busy = false := by
      by_contra hc
      have := hbusy (by simpa using hc)
      simp [busyGuarded, ht, Txn.isWrite, hop] at this
    simp only [valueError, ht, hop, ite_eq_right_iff, reduceCtorEq, imp_false] at hval
    exact inv_writeSize h hb (by omega) (by omega)
  · unfold writeStatus
    split
    · exact ⟨h.lmax_legal, h.size_legal, h.data_canonical, h.data_in_ram, h.pass_busy, h.pass_idle, fun _ => rfl,
        h.seq_last, h.record_clear, h.addr_reserved⟩
    · exact h
  · exact ⟨h.lmax_legal, h.size_legal, h.data_canonical, h.data_in_ram, h.pass_busy, h.pass_idle, h.done_idle,
      h.seq_last, fun _ => ⟨rfl, rfl, rfl⟩, zero_reserved⟩
  · rename_i k p ht
    simp only [outOfRange, ht, decide_eq_false_iff_not, not_le] at hrange
    exact inv_storeWord h hrange p w
  all_goals exact h

theorem inv_access (h : Inv s) {t : Txn} (hn : firstError t s = none) : Inv (access t s) := by
  unfold access
  split
  · exact inv_of_eq_but_rdata h _ rfl
  · rename_i w hop
    exact inv_writeTarget h hop hn

theorem inv_resetStep (h : Inv s) : Inv (resetStep s) :=
  ⟨h.lmax_legal, ⟨le_refl 1, h.lmax_legal.1⟩, rfl, by simp, fun hc => by simp at hc, fun _ => rfl, fun hc => by simp at hc,
    .inl ⟨rfl, rfl⟩, fun _ => ⟨rfl, rfl, rfl⟩, zero_reserved⟩

/-- In a state of the invariant, SEQ has a pass number PASS while the block is busy. -/
theorem pass_of_busy (h : Inv s) (hb : s.busy = true) : ∃ p, s.seq[s.pass.toNat]? = some p :=
  ⟨_, List.getElem?_eq_getElem (h.pass_busy hb)⟩

end Sys2Proof.Machine
end

