-- ==== Sys2Proof/Laws/Numerics.lean ====
section
/-! SUPPORT. Binary32: the fields of a rounded pattern, and rounding to the nearest value, ties to even (R202). -/

namespace Sys2Proof.Machine

/-! ### Fields -/

theorem expOf_eq (x : Word) : expOf x = x.toNat / 2 ^ 23 % 2 ^ 8 := by
  rw [expOf, BitVec.extractLsb'_toNat, Nat.shiftRight_eq_div_pow]

theorem fracOf_eq (x : Word) : fracOf x = x.toNat % 2 ^ 23 := by
  rw [fracOf, BitVec.extractLsb'_toNat, Nat.shiftRight_zero]

theorem signOf_eq (x : Word) : signOf x = decide (2 ^ 31 ≤ x.toNat) := by
  rw [signOf, BitVec.getLsbD, Nat.testBit_eq_decide_div_mod_eq]
  have := x.isLt
  rw [decide_eq_decide]
  omega

theorem fracOf_lt (x : Word) : fracOf x < 2 ^ 23 := by
  rw [fracOf_eq]; exact Nat.mod_lt _ (by norm_num)

theorem expOf_lt (x : Word) : expOf x < 256 := by
  rw [expOf_eq]; exact Nat.mod_lt _ (by norm_num)

/-- A pattern of given sign and magnitude bits. -/
theorem toNat_pattern (neg : Bool) (P : Nat) (hP : P < 2 ^ 31) :
    (BitVec.ofBool neg ++ BitVec.ofNat 31 P : Word).toNat = neg.toNat * 2 ^ 31 + P := by
  rw [BitVec.toNat_append, BitVec.toNat_ofBool, BitVec.toNat_ofNat, Nat.mod_eq_of_lt hP, Nat.shiftLeft_eq,
    Nat.mul_comm, ← Nat.two_pow_add_eq_or_of_lt hP, Nat.mul_comm]

theorem fields_pattern (neg : Bool) (P : Nat) (hP : P < 2 ^ 31) :
    signOf (BitVec.ofBool neg ++ BitVec.ofNat 31 P : Word) = neg ∧
    expOf (BitVec.ofBool neg ++ BitVec.ofNat 31 P : Word) = P / 2 ^ 23 ∧
    fracOf (BitVec.ofBool neg ++ BitVec.ofNat 31 P : Word) = P % 2 ^ 23 := by
  have h := toNat_pattern neg P hP
  rw [signOf_eq, expOf_eq, fracOf_eq, h]
  cases neg <;> simp only [Bool.toNat_true, Bool.toNat_false, decide_eq_true_eq, decide_eq_false_iff_not] <;> omega

/-- The value of a finite pattern is a multiple of `2^u` or lies below the first binade of that spacing. -/
theorem magnitude_grid (y : Word) (u : Nat) :
    (∃ j, magnitude y = j * 2 ^ u) ∨ (0 < u ∧ magnitude y < 2 ^ (u + 23)) := by
  have hf := fracOf_lt y
  unfold magnitude
  split
  · by_cases hu : u = 0
    · exact .inl ⟨fracOf y, by simp [hu]⟩
    · exact .inr ⟨by omega, lt_of_lt_of_le hf (Nat.pow_le_pow_right (by norm_num) (by omega))⟩
  · rename_i he
    by_cases hu : u ≤ expOf y - 1
    · refine .inl ⟨(2 ^ 23 + fracOf y) * 2 ^ (expOf y - 1 - u), ?_⟩
      rw [Nat.mul_assoc, ← Nat.pow_add, Nat.sub_add_cancel hu]
    · refine .inr ⟨by omega, ?_⟩
      calc (2 ^ 23 + fracOf y) * 2 ^ (expOf y - 1) < 2 ^ 24 * 2 ^ (expOf y - 1) :=
            Nat.mul_lt_mul_of_pos_right (by omega) (by positivity)
        _ = 2 ^ (24 + (expOf y - 1)) := by rw [Nat.pow_add]
        _ ≤ 2 ^ (u + 23) := Nat.pow_le_pow_right (by norm_num) (by omega)

/-! ### Rounding an exact quotient -/

theorem roundHalfEven_cases (A D : Nat) (hD : 0 < D) : ∃ d r, A = d * D + r ∧ r < D ∧
    ((2 * r < D ∧ roundHalfEven A D = d) ∨ (D < 2 * r ∧ roundHalfEven A D = d + 1) ∨
      (2 * r = D ∧ roundHalfEven A D % 2 = 0 ∧ (roundHalfEven A D = d ∨ roundHalfEven A D = d + 1))) := by
  refine ⟨A / D, A % D, by rw [Nat.mul_comm, Nat.div_add_mod], Nat.mod_lt _ hD, ?_⟩
  unfold roundHalfEven
  dsimp only
  split
  · exact .inl ⟨by assumption, rfl⟩
  · split
    · exact .inr (.inl ⟨by assumption, rfl⟩)
    · refine .inr (.inr ⟨by omega, ?_⟩)
      split <;> omega

/-- The distance of a multiple `j * D` from `A = d * D + r`. -/
theorem dist_multiple {A D d r : Nat} (hA : A = d * D + r) (hr : r < D) (j : Int) :
    (j ≤ d ∧ |j * D - A| = (d - j) * D + r) ∨ (d + 1 ≤ j ∧ |j * D - A| = (j - d) * D - r) := by
  rcases le_or_gt j d with h | h
  · refine .inl ⟨h, ?_⟩
    have : 0 ≤ ((d : Int) - j) * D := mul_nonneg (by omega) (by positivity)
    rw [abs_of_nonpos] <;> rw [hA] <;> push_cast <;> nlinarith
  · refine .inr ⟨by omega, ?_⟩
    have : (D : Int) ≤ (j - d) * D := le_mul_of_one_le_left (by positivity) (by omega)
    rw [abs_of_nonneg] <;> rw [hA] <;> push_cast <;> nlinarith

/-- `roundHalfEven` gives the nearest multiple, and an even one where another multiple is as near. -/
theorem roundHalfEven_nearest (A D : Nat) (hD : 0 < D) (j : Int) :
    |(roundHalfEven A D : Int) * D - A| ≤ |j * D - A| ∧
    (|j * D - A| = |(roundHalfEven A D : Int) * D - A| → j ≠ roundHalfEven A D → roundHalfEven A D % 2 = 0) := by
  obtain ⟨d, r, hA, hr, hcase⟩ := roundHalfEven_cases A D hD
  have hj := dist_multiple hA hr j
  have hd0 : |((d : Int)) * D - A| = r := by
    rcases dist_multiple hA hr (d : Int) with ⟨-, h⟩ | ⟨h, -⟩
    · simpa using h
    · omega
  have hd1 : |((d : Int) + 1) * D - A| = D - r := by
    rcases dist_multiple hA hr ((d : Int) + 1) with ⟨h, -⟩ | ⟨-, h⟩
    · omega
    · simpa using h
  have hlow : j ≤ d → |j * D - A| = (d - j) * D + r ∧ (j < d → (D : Int) ≤ (d - j) * D) := fun h =>
    ⟨hj.elim (·.2) (fun h' => by omega), fun h' => le_mul_of_one_le_left (by positivity) (by omega)⟩
  have hhigh : d + 1 ≤ j → |j * D - A| = (j - d) * D - r ∧ (d + 1 < j → 2 * (D : Int) ≤ (j - d) * D) ∧
      (D : Int) ≤ (j - d) * D := fun h =>
    ⟨hj.elim (fun h' => by omega) (·.2), fun h' => mul_le_mul_of_nonneg_right (by omega) (by positivity),
      le_mul_of_one_le_left (by positivity) (by omega)⟩
  have hnn : j ≤ d → 0 ≤ ((d : Int) - j) * D := fun h => mul_nonneg (by omega) (by positivity)
  rcases hcase with ⟨h2, hn⟩ | ⟨h2, hn⟩ | ⟨h2, heven, hn⟩
  · rw [hn, hd0]
    rcases le_or_gt j d with h | h
    · obtain ⟨h3, h4⟩ := hlow h
      have h5 := hnn h
      refine ⟨by omega, fun he hne => ?_⟩
      have := h4 (by omega); omega
    · obtain ⟨h3, -, h5⟩ := hhigh h
      exact ⟨by omega, fun he _ => by omega⟩
  · rw [hn]; push_cast; rw [hd1]
    rcases le_or_gt j d with h | h
    · obtain ⟨h3, -⟩ := hlow h
      have h5 := hnn h
      exact ⟨by omega, fun he _ => by omega⟩
    · obtain ⟨h3, h4, h5⟩ := hhigh h
      refine ⟨by omega, fun he hne => ?_⟩
      have := h4 (by omega); omega
  · refine ⟨?_, fun _ _ => heven⟩
    have hx : |(roundHalfEven A D : Int) * D - A| = r := by
      rcases hn with hn | hn <;> rw [hn]
      · exact hd0
      · push_cast; rw [hd1]; omega
    rw [hx]
    rcases le_or_gt j d with h | h
    · obtain ⟨h3, -⟩ := hlow h
      have h5 := hnn h
      omega
    · obtain ⟨h3, -, h5⟩ := hhigh h
      omega

/-! ### The rounded magnitude -/

/-- The exponent above -126 of the spacing of the values near `m / 2^q`: `E + 126` of R202. -/
def spacing (m q : Nat) : Nat := Nat.log2 m + 126 - q

/-- The rounded significand. -/
def significand (m q : Nat) : Nat := roundHalfEven (m * 2 ^ 149) (2 ^ (q + spacing m q))

theorem roundMagnitude_eq {m q : Nat} (hm : m ≠ 0) (ho : m < (2 ^ 128 - 2 ^ 103) * 2 ^ q) :
    roundMagnitude m q = spacing m q * 2 ^ 23 + significand m q := by
  rw [roundMagnitude, if_neg hm, if_neg (by omega)]; rfl

theorem log2_bounds {m : Nat} (hm : m ≠ 0) : 2 ^ Nat.log2 m ≤ m ∧ m < 2 ^ (Nat.log2 m + 1) :=
  ⟨Nat.log2_self_le hm, Nat.lt_log2_self⟩

/-- The exact quotient in units of the spacing lies in the binade `[2^23, 2^24)`, or below it at the least spacing. -/
theorem scaled_bounds {m q : Nat} (hm : m ≠ 0) :
    m * 2 ^ 149 < 2 ^ 24 * 2 ^ (q + spacing m q) ∧
    (0 < spacing m q → 2 ^ 23 * 2 ^ (q + spacing m q) ≤ m * 2 ^ 149) := by
  obtain ⟨h1, h2⟩ := log2_bounds hm
  constructor
  · calc m * 2 ^ 149 < 2 ^ (Nat.log2 m + 1) * 2 ^ 149 := Nat.mul_lt_mul_of_pos_right h2 (by positivity)
      _ = 2 ^ (Nat.log2 m + 150) := by rw [← Nat.pow_add]
      _ ≤ 2 ^ (24 + (q + spacing m q)) := Nat.pow_le_pow_right (by norm_num) (by unfold spacing; omega)
      _ = 2 ^ 24 * 2 ^ (q + spacing m q) := by rw [Nat.pow_add]
  · intro hu
    calc 2 ^ 23 * 2 ^ (q + spacing m q) = 2 ^ (23 + (q + spacing m q)) := by rw [← Nat.pow_add]
      _ ≤ 2 ^ (Nat.log2 m + 149) := Nat.pow_le_pow_right (by norm_num) (by unfold spacing at *; omega)
      _ = 2 ^ Nat.log2 m * 2 ^ 149 := by rw [← Nat.pow_add]
      _ ≤ m * 2 ^ 149 := Nat.mul_le_mul_right _ h1

theorem significand_bounds {m q : Nat} (hm : m ≠ 0) :
    significand m q ≤ 2 ^ 24 ∧ (0 < spacing m q → 2 ^ 23 ≤ significand m q) := by
  obtain ⟨h1, h2⟩ := scaled_bounds (q := q) hm
  have hD : 0 < 2 ^ (q + spacing m q) := by positivity
  obtain ⟨d, r, hA, hr, hcase⟩ := roundHalfEven_cases (m * 2 ^ 149) _ hD
  have hd : d < 2 ^ 24 := by
    by_contra hc
    have := Nat.mul_le_mul_right (2 ^ (q + spacing m q)) (not_lt.1 hc)
    omega
  have hs : significand m q = d ∨ significand m q = d + 1 := by
    unfold significand; omega
  refine ⟨by omega, fun hu => ?_⟩
  have h3 := h2 hu
  have : 2 ^ 23 ≤ d := by
    by_contra hc
    have := Nat.mul_le_mul_right (2 ^ (q + spacing m q)) (show d + 1 ≤ 2 ^ 23 by omega)
    rw [Nat.add_mul] at this
    omega
  omega

/-- A magnitude that does not overflow rounds to a finite pattern. -/
theorem roundMagnitude_lt {m q : Nat} (hm : m ≠ 0) (ho : m < (2 ^ 128 - 2 ^ 103) * 2 ^ q) :
    roundMagnitude m q < 255 * 2 ^ 23 := by
  rw [roundMagnitude_eq hm ho]
  have hu : spacing m q ≤ 253 := by
    have h1 := (log2_bounds hm).1
    have h2 : m < 2 ^ (128 + q) := by
      rw [Nat.pow_add]
      exact lt_of_lt_of_le ho (Nat.mul_le_mul_right _ (by norm_num))
    have h3 := (Nat.pow_lt_pow_iff_right (by norm_num : 1 < 2)).1 (lt_of_le_of_lt h1 h2)
    unfold spacing; omega
  have hs := (significand_bounds (q := q) hm).1
  rcases Nat.lt_or_ge (spacing m q) 253 with h | h
  · omega
  · have hu' : spacing m q = 253 := by omega
    have : significand m q < 2 ^ 24 := by
      unfold significand
      rw [hu']
      obtain ⟨d, r, hA, hr, hcase⟩ := roundHalfEven_cases (m * 2 ^ 149) (2 ^ (q + 253)) (by positivity)
      have hlt : m * 2 ^ 149 * 2 < (2 ^ 25 - 1) * 2 ^ (q + 253) := by
        calc m * 2 ^ 149 * 2 = m * 2 ^ 150 := by ring
          _ < (2 ^ 128 - 2 ^ 103) * 2 ^ q * 2 ^ 150 := Nat.mul_lt_mul_of_pos_right ho (by positivity)
          _ = (2 ^ 25 - 1) * 2 ^ (q + 253) := by rw [Nat.pow_add]; ring_nf
      have hd : d < 2 ^ 24 := by
        by_contra hc
        have := Nat.mul_le_mul_right (2 ^ (q + 253)) (not_lt.1 hc)
        omega
      rcases Nat.lt_or_ge d (2 ^ 24 - 1) with h' | h'
      · omega
      · have hd' : d = 2 ^ 24 - 1 := by omega
        subst hd'
        have : 2 * r < 2 ^ (q + 253) := by omega
        omega
    omega

/-- The value of the rounded pattern in units of 2^-149. -/
theorem magnitude_roundSigned {m q : Nat} (neg : Bool) (hm : m ≠ 0) (ho : m < (2 ^ 128 - 2 ^ 103) * 2 ^ q) :
    signOf (roundSigned neg m q) = neg ∧ isFinite (roundSigned neg m q) = true ∧
    magnitude (roundSigned neg m q) = significand m q * 2 ^ spacing m q ∧
    fracOf (roundSigned neg m q) % 2 = significand m q % 2 := by
  have hlt := roundMagnitude_lt hm ho
  obtain ⟨h1, h2, h3⟩ := fields_pattern neg (roundMagnitude m q) (by omega)
  obtain ⟨hs1, hs2⟩ := significand_bounds (q := q) hm
  have heq := roundMagnitude_eq hm ho
  refine ⟨h1, ?_, ?_, ?_⟩
  · rw [isFinite, roundSigned, h2, decide_eq_true_eq]; omega
  · rw [magnitude, roundSigned, h2, h3, heq]
    rcases Nat.eq_zero_or_pos (spacing m q) with hu | hu
    · rw [hu]
      rcases Nat.lt_or_ge (significand m q) (2 ^ 23) with hn | hn
      · rw [if_pos (by omega)]; omega
      · rcases Nat.lt_or_ge (significand m q) (2 ^ 24) with hn' | hn'
        · rw [if_neg (by omega), show (0 * 2 ^ 23 + significand m q) / 2 ^ 23 - 1 = 0 by omega]; omega
        · rw [if_neg (by omega), show (0 * 2 ^ 23 + significand m q) / 2 ^ 23 - 1 = 1 by omega]; omega
    · have hn := hs2 hu
      rcases Nat.lt_or_ge (significand m q) (2 ^ 24) with hn' | hn'
      · rw [if_neg (by omega), show (spacing m q * 2 ^ 23 + significand m q) / 2 ^ 23 - 1 = spacing m q by omega,
          show 2 ^ 23 + (spacing m q * 2 ^ 23 + significand m q) % 2 ^ 23 = significand m q by omega]
      · rw [if_neg (by omega), show (spacing m q * 2 ^ 23 + significand m q) / 2 ^ 23 - 1 = spacing m q + 1 by omega,
          show (spacing m q * 2 ^ 23 + significand m q) % 2 ^ 23 = 0 by omega,
          show significand m q = 2 ^ 24 by omega, Nat.pow_succ]
        omega
  · rw [roundSigned, h3, heq]; omega

/-- The rounded magnitude is nearest to the exact one among the scaled values of the finite patterns, and its
significand is even where another value is as near (R202). -/
theorem significand_nearest {m q : Nat} (hm : m ≠ 0) (y : Word) :
    |(significand m q * 2 ^ spacing m q : Int) * 2 ^ q - m * 2 ^ 149| ≤ |scaled y * 2 ^ q - m * 2 ^ 149| ∧
    (|scaled y * 2 ^ q - m * 2 ^ 149| = |(significand m q * 2 ^ spacing m q : Int) * 2 ^ q - m * 2 ^ 149| →
      scaled y ≠ significand m q * 2 ^ spacing m q → significand m q % 2 = 0) := by
  have hD : 0 < 2 ^ (q + spacing m q) := by positivity
  have key := roundHalfEven_nearest (m * 2 ^ 149) (2 ^ (q + spacing m q)) hD
  have hgrid : ∀ j : Int, (j * 2 ^ spacing m q) * 2 ^ q = j * ((2 ^ (q + spacing m q) : Nat) : Int) := by
    intro j; push_cast; rw [pow_add]; ring
  have hA : ((m * 2 ^ 149 : Nat) : Int) = (m : Int) * 2 ^ 149 := by push_cast; rfl
  have hx : |(significand m q * 2 ^ spacing m q : Int) * 2 ^ q - m * 2 ^ 149| =
      |(roundHalfEven (m * 2 ^ 149) (2 ^ (q + spacing m q)) : Int) * ((2 ^ (q + spacing m q) : Nat) : Int) -
        ((m * 2 ^ 149 : Nat) : Int)| := by
    rw [hgrid, hA]; rfl
  rw [hx]
  rcases magnitude_grid y (spacing m q) with ⟨j, hj⟩ | ⟨hu, hlt⟩
  · obtain ⟨i, hi⟩ : ∃ i : Int, scaled y = i * 2 ^ spacing m q := by
      unfold scaled
      split
      · exact ⟨-j, by rw [hj]; push_cast; ring⟩
      · exact ⟨j, by rw [hj]; push_cast; ring⟩
    rw [hi, hgrid, ← hA]
    refine ⟨(key i).1, fun h1 h2 => (key i).2 h1 fun h3 => h2 ?_⟩
    rw [h3]; rfl
  · have hlow := (scaled_bounds (q := q) hm).2 hu
    have hy : scaled y * 2 ^ q < (2 ^ 23 : Int) * ((2 ^ (q + spacing m q) : Nat) : Int) := by
      have h1 : scaled y ≤ magnitude y := by unfold scaled; split <;> omega
      have h2 : (magnitude y : Int) < 2 ^ (spacing m q + 23) := by exact_mod_cast hlt
      calc scaled y * 2 ^ q < 2 ^ (spacing m q + 23) * 2 ^ q :=
            mul_lt_mul_of_pos_right (lt_of_le_of_lt h1 h2) (by positivity)
        _ = (2 ^ 23 : Int) * ((2 ^ (q + spacing m q) : Nat) : Int) := by
            push_cast; rw [pow_add, pow_add]; ring
    have hle : (2 ^ 23 : Int) * ((2 ^ (q + spacing m q) : Nat) : Int) ≤ ((m * 2 ^ 149 : Nat) : Int) := by
      exact_mod_cast hlow
    have h23 := (key (2 ^ 23)).1
    rw [abs_of_nonpos (a := 2 ^ 23 * ((2 ^ (q + spacing m q) : Nat) : Int) - _) (by omega)] at h23
    have hfar : |scaled y * 2 ^ q - (m : Int) * 2 ^ 149| = m * 2 ^ 149 - scaled y * 2 ^ q := by
      rw [abs_of_nonpos (by rw [← hA]; omega)]; ring
    rw [hfar, ← hA]
    exact ⟨by omega, fun h => by omega⟩

end Sys2Proof.Machine
end

