-- ==== Sys2Proof/Laws/Passes.lean ====
section
/-! SUPPORT. The passes: bit reversal by bits (R58), a stage's sizes and pairs (R152, R280), and that a pass of a command
reads the buffer alone (R54). -/

namespace Sys2Proof.Machine

theorem revBits_lt (L k : Nat) : revBits L k < 2 ^ L := by
  induction L generalizing k with
  | zero => simp [revBits]
  | succ L ih =>
    have := ih (k / 2)
    have h2 : (k % 2) * 2 ^ L ≤ 1 * 2 ^ L := Nat.mul_le_mul_right _ (by omega)
    simp only [revBits, Nat.pow_succ]
    omega

/-- Bit `b` of `rev_L(k)` is bit `L-1-b` of `k` (R58). -/
theorem testBit_revBits (L k b : Nat) : (revBits L k).testBit b = (decide (b < L) && k.testBit (L - 1 - b)) := by
  induction L generalizing k b with
  | zero => simp [revBits]
  | succ L ih =>
    rw [revBits, Nat.mul_comm, Nat.testBit_two_pow_mul_add _ (revBits_lt L (k / 2))]
    by_cases h : b < L
    · rw [if_pos h, ih, Nat.testBit_div_two]
      simp only [h, show b < L + 1 by omega, decide_true, Bool.true_and]
      congr 1; omega
    · rw [if_neg h]
      by_cases h2 : b = L
      · subst h2; simp
      · rw [show b - L = (b - L - 1) + 1 by omega, Nat.testBit_succ, show k % 2 / 2 = 0 by omega]
        simp [show ¬ b < L + 1 by omega]

theorem stageSize_eq (e : Nat) : stageSize e = 2 ^ e := by simp [stageSize, Nat.shiftLeft_eq]

theorem halfSize_eq {e : Nat} (h : 1 ≤ e) : halfSize e = 2 ^ (e - 1) := by
  obtain ⟨e, rfl⟩ : ∃ d, e = d + 1 := ⟨e - 1, by omega⟩
  simp [halfSize, stageSize_eq, Nat.shiftRight_eq_div_pow, Nat.pow_succ]

/-- The pair of an entry of the buffer lies in the buffer (R280). -/
theorem pair_lt {L e i : Nat} (h1 : 1 ≤ e) (h2 : e ≤ L) (hi : i < 2 ^ L) :
    i / stageSize e * stageSize e + i % halfSize e + halfSize e < 2 ^ L := by
  rw [stageSize_eq, halfSize_eq h1]
  have hs : 2 ^ e = 2 * 2 ^ (e - 1) := by rw [← Nat.pow_succ']; congr 1; omega
  have hL : 2 ^ L = 2 ^ (L - e) * 2 ^ e := by rw [← Nat.pow_add]; congr 1; omega
  have hq : i / 2 ^ e < 2 ^ (L - e) := by
    rw [Nat.div_lt_iff_lt_mul (by positivity), ← hL]; exact hi
  have hm : i % 2 ^ (e - 1) < 2 ^ (e - 1) := Nat.mod_lt _ (by positivity)
  have := Nat.mul_le_mul_right (2 ^ e) (show i / 2 ^ e + 1 ≤ 2 ^ (L - e) by omega)
  rw [Nat.add_mul] at this
  rw [hL]; omega

/-- The stages of a well-formed command's passes are stages of its size (R351). -/
theorem stage_of_mem_passes {L e : Nat} {i : Instr} (hi : i.wellFormed L = true) (hp : Pass.bf e ∈ passes i L) :
    1 ≤ e ∧ e ≤ L := by
  cases i with
  | bfly e' => simp [passes, Instr.wellFormed] at hp hi; omega
  | fwd => simp [passes] at hp; omega
  | inv => simp [passes] at hp; omega
  | _ => simp [passes] at hp

/-- A pass of a well-formed command reads entries of the buffer alone. -/
theorem applyPass_congr {lmax L : Nat} {i : Instr} {p : Pass} {D D' : Nat → Cplx} (hi : i.wellFormed L = true)
    (hp : p ∈ passes i L) (h : ∀ k, k < 2 ^ L → D k = D' k) {k : Nat} (hk : k < 2 ^ L) :
    applyPass lmax L p D k = applyPass lmax L p D' k := by
  cases p with
  | rev => exact h _ (revBits_lt L k)
  | norm => simp only [applyPass, normPass, h k hk]
  | conj => simp only [applyPass, conjPass, h k hk]
  | bf e =>
    obtain ⟨h1, h2⟩ := stage_of_mem_passes hi hp
    have h3 := pair_lt h1 h2 hk
    have h4 : k / stageSize e * stageSize e + k % halfSize e < 2 ^ L := by omega
    simp only [applyPass, bfPass, h _ h3, h _ h4]

end Sys2Proof.Machine
end

