-- ==== Sys2Proof/Laws/PerInstr.lean ====
section
/-! SUPPORT. Families of statements made per command. -/

namespace Sys2Proof.Laws

/-- The command's word has its reserved fields zero and a stage only for BFLY (R151), and decodes to the command. -/
def RoundTrip.Statement (i : Instr) : Prop :=
  fieldRsv0 (encode i) = 0#4 ∧ fieldRsv1 (encode i) = 0#20 ∧
    (fieldOp (encode i) ≠ 2#4 → fieldStg (encode i) = 0#4) ∧ decodeWord (encode i) = .ok i

namespace RoundTrip

theorem bitrev : Statement .bitrev := by unfold Statement; decide

theorem bfly (e : BitVec 4) : Statement (.bfly e) := by unfold Statement; revert e; decide

theorem norm : Statement .norm := by unfold Statement; decide

theorem conj : Statement .conj := by unfold Statement; decide

theorem fwd : Statement .fwd := by unfold Statement; decide

theorem inv : Statement .inv := by unfold Statement; decide

end RoundTrip

end Sys2Proof.Laws
end

