-- ==== Sys2Proof/Laws/Run.lean ====
section
/-! SUPPORT. Runs of a command: what holds after `j` of its passes, and that each turn of the engine adds one. -/

namespace Sys2Proof.Machine

theorem run_next {s t : State} (h : step s = .next t) (n : Nat) :
    Host.Core.run core (n + 1) s = Host.Core.run core n t := by
  have h' : core.step s = .next t := h
  simp only [Host.Core.run, h']

/-- A state with the same data RAM since the same reset has the same bytes. -/
theorem readByte_of_data_eq {s t : State} (hd : t.data = s.data) (hr : t.resets = s.resets) (a : Nat) :
    t.readByte a = s.readByte a :=
  readByte_congr hr (by rw [hd])

/-- In `s`, `j` passes of the sequence `ps`, started from the buffer of `s0`, are done, and the command goes on. -/
structure Running (s0 s : State) (ps : List Pass) (j : Nat) : Prop where
  busy : s.busy = true
  pass : s.pass.toNat = j
  seq : s.seq = ps
  sizeL : s.sizeL = s0.sizeL
  lmax : s.lmax = s0.lmax
  resets : s.resets = s0.resets
  buffer : ∀ k, k < s0.size → s.entry k = composePasses s0.lmax.toNat s0.sizeL.toNat (ps.take j) s0.entry k
  beyond : ∀ a, a < dataBase ∨ entryOffset s0.size ≤ a → s.readByte a = s0.readByte a

/-- An accepted command starts with no pass done. -/
theorem running_accept (s : State) (w : Word) (ps : List Pass) : Running s (accept w ps s) ps 0 :=
  ⟨rfl, rfl, rfl, rfl, rfl, rfl, fun _ _ => rfl, fun _ _ => rfl⟩

theorem running_begin {s0 s : State} {ps : List Pass} {j : Nat} (h : Running s0 s ps j) (r : List Event) :
    Running s0 (s.begin r) ps j :=
  ⟨h.busy, h.pass, h.seq, h.sizeL, h.lmax, h.resets,
    fun k hk => (congrFun (entry_of_data_eq (t := s.begin r) rfl rfl) k).trans (h.buffer k hk), fun a ha => h.beyond a ha⟩

/-- A host transaction leaves a running command as it is. -/
theorem running_transact {s0 s : State} {ps : List Pass} {j : Nat} (h : Running s0 s ps j) (t : Txn) :
    ∃ u, transact t s = .next u ∧ u.inputs = s.inputs ∧ Running s0 u ps j := by
  obtain ⟨u, hu, h1, h2, h3, h4, h5, -, h7, h8, h9⟩ := transact_while_busy h.busy t
  refine ⟨u, hu, h9, h1, by rw [h3]; exact h.pass, by rw [h2]; exact h.seq, by rw [h4]; exact h.sizeL,
    by rw [h5]; exact h.lmax, by rw [h8]; exact h.resets, fun k hk => ?_, fun a ha => ?_⟩
  · rw [← h.buffer k hk, entry_of_data_eq (s := s) h7 h8]
  · rw [← h.beyond a ha, readByte_of_data_eq (s := s) h7 h8]

/-- A turn of the engine in a running command: one more pass, and completion after the last. -/
theorem running_engine {s0 s : State} {i : Instr} {j : Nat} (hi : i.wellFormed s0.sizeL.toNat = true)
    (h : Running s0 s (passes i s0.sizeL.toNat) j) (hj : j < (passes i s0.sizeL.toNat).length) :
    ∃ t, engineStep s = .next t ∧
      (∀ k, k < s0.size → t.entry k =
        composePasses s0.lmax.toNat s0.sizeL.toNat ((passes i s0.sizeL.toNat).take (j + 1)) s0.entry k) ∧
      (∀ a, a < dataBase ∨ entryOffset s0.size ≤ a → t.readByte a = s0.readByte a) ∧
      t.pass.toNat = j + 1 ∧
      (j + 1 = (passes i s0.sizeL.toNat).length → t.busy = false ∧ t.done = true) ∧
      (j + 1 < (passes i s0.sizeL.toNat).length → Running s0 t (passes i s0.sizeL.toNat) (j + 1)) ∧
      { t with data := s.data, pass := s.pass, busy := s.busy, done := s.done } = s := by
  set ps := passes i s0.sizeL.toNat with hps
  have hp : s.seq[s.pass.toNat]? = some ps[j] := by rw [h.pass, h.seq]; exact List.getElem?_eq_getElem hj
  have hlen : ps.length ≤ 19 := le_trans (passes_length_le i _) (by have := s0.sizeL.isLt; omega)
  have hadd : (s.pass + 1#5).toNat = j + 1 := by
    rw [BitVec.toNat_add, h.pass]; exact Nat.mod_eq_of_lt (by simp only [BitVec.toNat_ofNat]; omega)
  have hsz : s.size = s0.size := by simp [State.size, h.sizeL]
  have hent : ∀ k, k < s0.size → (countPass (runPass ps[j] s)).entry k =
      composePasses s0.lmax.toNat s0.sizeL.toNat (ps.take (j + 1)) s0.entry k := by
    intro k hk
    rw [show (countPass (runPass ps[j] s)).entry = (runPass ps[j] s).entry from
      entry_of_data_eq (by simp) (by simp)]
    rw [runPass, entry_storeBuffer s _ k (by omega), h.sizeL, h.lmax]
    rw [List.take_add_one, List.getElem?_eq_getElem hj, composePasses, List.foldl_append]
    exact applyPass_congr hi (List.getElem_mem hj) (fun k hk => h.buffer k hk) hk
  have hrest : ∀ a, a < dataBase ∨ entryOffset s0.size ≤ a →
      (countPass (runPass ps[j] s)).readByte a = s0.readByte a := by
    intro a ha
    rw [readByte_of_data_eq (s := runPass ps[j] s) (by simp) (by simp), ← h.beyond a ha]
    exact readByte_storeBuffer_outside s _ a (by rw [hsz]; exact ha)
  refine ⟨_, engineStep_busy h.busy hp, hent, hrest, by simpa [runPass] using hadd, ?_, ?_, ?_⟩
  · intro he
    simp [runPass, h.seq, hadd, he]
  · intro hne
    refine ⟨?_, by simpa [runPass] using hadd, by simp [runPass, h.seq], by simp [runPass, h.sizeL],
      by simp [runPass, h.lmax], by simp [runPass, h.resets], hent, hrest⟩
    have hbusy : (runPass ps[j] s).busy = true := h.busy
    rw [countPass_busy, hbusy, if_neg]
    show ¬ (s.pass + 1#5).toNat = s.seq.length
    rw [hadd, h.seq]; omega
  · unfold countPass; dsimp only; split <;> rfl

/-- Runs compose. -/
theorem run_add {s t : State} {m : Nat} (n : Nat) (h : Host.Core.run core m s = .next t) :
    Host.Core.run core (m + n) s = Host.Core.run core n t := by
  induction m generalizing s with
  | zero => rw [Nat.zero_add]; cases h; rfl
  | succ m ih =>
    rw [Nat.add_right_comm]
    simp only [Host.Core.run] at h ⊢
    split at h
    · exact ih h
    · cases h
    · cases h

/-- The turns that a running command needs, one after the other, complete it. -/
theorem running_turns {s0 : State} {i : Instr} (hi : i.wellFormed s0.sizeL.toNat = true) (rest : List Event) (n : Nat) :
    ∀ (s : State) (j : Nat), Running s0 s (passes i s0.sizeL.toNat) j →
      s.inputs = List.replicate (n + 1) .engine ++ rest → j + n + 1 = (passes i s0.sizeL.toNat).length →
      ∃ u, Host.Core.run core (n + 1) s = .next u ∧
        (∀ k, k < s0.size → State.entry u k =
          composePasses s0.lmax.toNat s0.sizeL.toNat (passes i s0.sizeL.toNat) s0.entry k) ∧
        (∀ a, a < dataBase ∨ entryOffset s0.size ≤ a → State.readByte u a = s0.readByte a) ∧
        State.busy u = false ∧ State.done u = true ∧ State.sizeL u = s0.sizeL ∧ State.lmax u = s0.lmax ∧
        State.inputs u = rest := by
  induction n with
  | zero =>
    intro s j h hin hc
    obtain ⟨t, ht, h1, h2, -, h4, -, h6⟩ := running_engine hi (running_begin h rest) (by omega)
    obtain ⟨hb, hd⟩ := h4 (by omega)
    refine ⟨t, run_next ((step_engine (rest := rest) (by simpa using hin)).trans ht) 0, fun k hk => ?_, h2, hb, hd,
      ?_, ?_, ?_⟩
    · rw [h1 k hk, List.take_of_length_le (by omega)]
    · exact (congrArg State.sizeL h6).trans h.sizeL
    · exact (congrArg State.lmax h6).trans h.lmax
    · exact congrArg State.inputs h6
  | succ n ih =>
    intro s j h hin hc
    obtain ⟨t, ht, -, -, -, -, h5, h6⟩ :=
      running_engine hi (running_begin h (List.replicate (n + 1) .engine ++ rest)) (by omega)
    rw [run_next ((step_engine (by rw [hin, List.replicate_succ]; rfl)).trans ht)]
    exact ih t (j + 1) (h5 (by omega)) (congrArg State.inputs h6) (by omega)

/-- A command issued to an idle block and given its turns: the buffer holds the composition of its passes, the bytes beyond it
are kept, and the block is idle again at the same size (R350, R352, R355). -/
theorem run_command {s : State} {i : Instr} {rest : List Event} (hb : s.busy = false)
    (hi : i.wellFormed s.sizeL.toNat = true)
    (hin : s.inputs = .host (cmdWrite (encode i)) :: (List.replicate (passes i s.sizeL.toNat).length .engine ++ rest)) :
    ∃ u, Host.Core.run core ((passes i s.sizeL.toNat).length + 1) s = .next u ∧
      (∀ k, k < s.size → State.entry u k =
        composePasses s.lmax.toNat s.sizeL.toNat (passes i s.sizeL.toNat) s.entry k) ∧
      (∀ a, a < dataBase ∨ entryOffset s.size ≤ a → State.readByte u a = s.readByte a) ∧
      State.busy u = false ∧ State.done u = true ∧ State.sizeL u = s.sizeL ∧ State.lmax u = s.lmax ∧
      State.inputs u = rest := by
  have hpos := passes_length_pos i s.sizeL.toNat
  obtain ⟨n, hn⟩ : ∃ n, (passes i s.sizeL.toNat).length = n + 1 := ⟨_, (Nat.succ_pred_eq_of_pos hpos).symm⟩
  rw [hn] at hin ⊢
  rw [run_next ((step_command hin (decode_encode i)).trans (exec_accepted hb hi))]
  exact running_turns hi rest n _ 0 ⟨rfl, rfl, rfl, rfl, rfl, rfl, fun _ _ => rfl, fun _ _ => rfl⟩ rfl (by omega)

end Sys2Proof.Machine
end

