-- ==== Sys2Proof/Tests/Slice0.lean ====
section
/-! SUPPORT. Tests of the model on vectors of spec/95_test_vectors.md and words written out from R154, and a witness for the
hypotheses of every statement. -/

namespace Sys2Proof.Tests

open Sys2Proof.Machine

/-! ### Helpers -/

/-- The buffer that a list of (re, im) patterns writes out. -/
def buffer (l : List (Nat × Nat)) : Nat → Cplx := fun k =>
  ⟨BitVec.ofNat 32 (l.getD k (0, 0)).1, BitVec.ofNat 32 (l.getD k (0, 0)).2⟩

/-- The patterns of the first `n` entries of a buffer. -/
def patterns (n : Nat) (D : Nat → Cplx) : List (Nat × Nat) :=
  (List.range n).map (fun k => ((D k).re.toNat, (D k).im.toNat))

/-- An idle block at log2 size `L` whose buffer is written. -/
def idle (L : Nat) (l : List (Nat × Nat)) : State :=
  { State.reset with sizeL := BitVec.ofNat 4 L, data := bufferCells (2 ^ L) (buffer l) }

/-- The same block with pass `p` of command `i` to run next, `done` passes being complete. -/
def running (L : Nat) (l : List (Nat × Nat)) (i : Instr) (done : Nat) : State :=
  { idle L l with lastCmd := encode i, seq := passes i L, pass := BitVec.ofNat 5 done, busy := true }

/-- Whether an outcome goes on to a state with the property `p`. -/
def goesTo (o : Host.Outcome State Fault Refusal) (p : State → Bool) : Bool :=
  match o with
  | .next t => p t
  | .fault _ => false
  | .refused _ => false

/-- The first `n` entries after an outcome. -/
def bufferAfter (n : Nat) (o : Host.Outcome State Fault Refusal) : List (Nat × Nat) :=
  match o with
  | .next t => patterns n t.entry
  | .fault _ => []
  | .refused _ => []

/-! ### WellFormed: each check with a term it refuses -/

theorem test_bfly_zero_is_ill_formed : Instr.wellFormed 12 (.bfly 0#4) = false := by decide

theorem test_bfly_above_size_is_ill_formed : Instr.wellFormed 2 (.bfly 3#4) = false := by decide

theorem test_bfly_at_size_is_well_formed : Instr.wellFormed 2 (.bfly 2#4) = true := by decide

/-! ### Decoding: words written out bit by bit from the opcode map (R154)

Fields in order RSV1 (20 bits), STG (4), RSV0 (4), OP (4). -/

theorem test_decode_bitrev : decodeWord 0b00000000000000000000_0000_0000_0001#32 = .ok .bitrev := by decide

theorem test_decode_bfly_1 : decodeWord 0b00000000000000000000_0001_0000_0010#32 = .ok (.bfly 1#4) := by decide

theorem test_decode_bfly_12 : decodeWord 0b00000000000000000000_1100_0000_0010#32 = .ok (.bfly 12#4) := by decide

theorem test_decode_norm : decodeWord 0b00000000000000000000_0000_0000_0011#32 = .ok .norm := by decide

theorem test_decode_conj : decodeWord 0b00000000000000000000_0000_0000_0100#32 = .ok .conj := by decide

theorem test_decode_fwd : decodeWord 0b00000000000000000000_0000_0000_0101#32 = .ok .fwd := by decide

theorem test_decode_inv : decodeWord 0b00000000000000000000_0000_0000_0110#32 = .ok .inv := by decide

/-- R155: OP 0x0 and 0x7. -/
theorem test_decode_unknown_op : decodeWord 0b0000#32 = .error .unknownOp ∧
    decodeWord 0b0111#32 = .error .unknownOp := by decide

/-- R155: RSV0 not 0, RSV1 not 0, STG on FWD. -/
theorem test_decode_reserved : decodeWord 0b0000_0001_0010#32 = .error .reservedBits ∧
    decodeWord 0b0001_0000_0000_0010#32 = .error .reservedBits ∧
    decodeWord 0b0001_0000_0101#32 = .error .stageNotAllowed := by decide

/-- R104: the lowest offset holds bits 7:0. -/
theorem test_decode_bytes : decodeBytes [0x02#8, 0x03#8, 0x00#8, 0x00#8] = .ok (.bfly 3#4) ∧
    decodeBytes [0x00#8, 0x00#8, 0x00#8, 0x01#8] = .error .reservedBits := by decide

/-- The opcode table's word of BFLY, its field bits 0. -/
theorem test_decode_table_word : decodeTableWord 32 0x00000002 = some (.bfly 0#4) := by decide

/-! ### Commands: the step that issues each (R350, R351), and a pass of each on a vector of section 3 to 8 -/

theorem test_bitrev_issue : goesTo (step (State.reset.withFetchWord 32 0x00000001)) (fun t =>
    decide (t.seq = [.rev] ∧ t.lastCmd = 0x00000001#32 ∧ t.busy = true ∧ t.pass = 0#5)) = true := by decide +kernel

/-- Section 3.2, N = 4: (1,2), (3,4), (5,6), (7,8). -/
theorem test_bitrev_pass : bufferAfter 4 (engineStep (running 2 [(0x3F800000, 0x40000000), (0x40400000, 0x40800000),
      (0x40A00000, 0x40C00000), (0x40E00000, 0x41000000)] .bitrev 0)) =
    [(0x3F800000, 0x40000000), (0x40A00000, 0x40C00000), (0x40400000, 0x40800000), (0x40E00000, 0x41000000)] := by
  decide +kernel

/-- Section 4: BFLY 0 is refused with ILLEGAL_CMD. -/
theorem test_bfly_zero_refused : goesTo (step (State.reset.withFetchWord 32 0x00000002)) (fun t =>
    decide (t.errCode = some .illegalCmd ∧ t.busy = false ∧ t.errData = 0x00000002#32 ∧
      t.errAddr = 0x82000010#32)) = true := by decide +kernel

/-- Section 4, stage 2 alone: (1,2), (3,4), (5,6), (7,8) gives (6,8), (-5,11), (-4,-4), (11,-3). -/
theorem test_bfly_pass : bufferAfter 4 (engineStep (running 2 [(0x3F800000, 0x40000000), (0x40400000, 0x40800000),
      (0x40A00000, 0x40C00000), (0x40E00000, 0x41000000)] (.bfly 2#4) 0)) =
    [(0x40C00000, 0x41000000), (0xC0A00000, 0x41300000), (0xC0800000, 0xC0800000), (0x41300000, 0xC0400000)] := by
  decide +kernel

theorem test_norm_issue : goesTo (step (State.reset.withFetchWord 32 0x00000003)) (fun t =>
    decide (t.seq = [.norm] ∧ t.busy = true ∧ t.done = false)) = true := by decide +kernel

/-- Section 5, odd L, subnormal and NaN. -/
theorem test_norm_pass : bufferAfter 2 (engineStep (running 1 [(0x00000001, 0x80000003), (0x7FC00001, 0x3F800000)]
    .norm 0)) = [(0x00000001, 0x80000002), (0x7FC00000, 0x3F3504F3)] := by decide +kernel

theorem test_conj_issue : goesTo (step (State.reset.withFetchWord 32 0x00000004)) (fun t =>
    decide (t.seq = [.conj] ∧ t.busy = true)) = true := by decide +kernel

/-- Section 6: the NaN keeps its payload. -/
theorem test_conj_pass : bufferAfter 2 (engineStep (running 1 [(0x3F800000, 0x00000000), (0x80000000, 0x7FC00001)]
    .conj 0)) = [(0x3F800000, 0x80000000), (0x80000000, 0xFFC00001)] := by decide +kernel

/-- R351 at L = 1. -/
theorem test_fwd_issue : goesTo (step (State.reset.withFetchWord 32 0x00000005)) (fun t =>
    decide (t.seq = [.rev, .bf 1, .norm] ∧ t.busy = true)) = true := by decide +kernel

/-- Section 7.1, complex ramp at N = 4: (8,10), (+0,-4), (-2,-2), (-4,+0). -/
theorem test_fwd_result : patterns 4 (composePasses 12 2 (passes .fwd 2) (buffer [(0x3F800000, 0x40000000),
      (0x40400000, 0x40800000), (0x40A00000, 0x40C00000), (0x40E00000, 0x41000000)])) =
    [(0x41000000, 0x41200000), (0x00000000, 0xC0800000), (0xC0000000, 0xC0000000), (0xC0800000, 0x00000000)] := by
  decide +kernel

/-- R351 at L = 1. -/
theorem test_inv_issue : goesTo (step (State.reset.withFetchWord 32 0x00000006)) (fun t =>
    decide (t.seq = [.conj, .rev, .bf 1, .norm, .conj] ∧ t.busy = true)) = true := by decide +kernel

/-- Section 8.1: one ulp short of (1,+0), (-1,+0), and the sign of a zero. -/
theorem test_inv_result : patterns 2 (composePasses 12 1 (passes .inv 1) (buffer [(0, 0), (0x3FB504F3, 0)])) =
    [(0x3F7FFFFF, 0x80000000), (0xBF7FFFFF, 0x00000000)] := by decide +kernel

/-! ### The engine's last pass -/

/-- R353: the step of the last pass of FWD at L = 1 completes it. -/
theorem test_last_pass_completes : goesTo (engineStep (running 1 [(0, 0), (0x40000000, 0)] .fwd 2)) (fun t =>
    decide (t.busy = false ∧ t.done = true ∧ t.pass = 3#5 ∧ t.statusWord = 0x00000302#32)) = true := by decide +kernel

/-! ### Numerics (section "Numerics") and tables (section 2) -/

theorem test_add_ties : fadd 0x3F800000#32 0x33800000#32 = 0x3F800000#32 ∧
    fadd 0x3F800000#32 0x33800001#32 = 0x3F800001#32 ∧ fadd 0x3F800001#32 0x33800000#32 = 0x3F800002#32 := by
  decide +kernel

theorem test_add_overflow : fadd 0x7F7FFFFF#32 0x7F7FFFFF#32 = 0x7F800000#32 := by decide +kernel

theorem test_mul_subnormal : fmul 0x00000003#32 0x3F000000#32 = 0x00000002#32 ∧
    fmul 0x80000001#32 0x3F000000#32 = 0x80000000#32 ∧ fmul 0x00800000#32 0x3F000000#32 = 0x00400000#32 := by
  decide +kernel

theorem test_cmul_by_one_changes_zeros : cmul ⟨0x80000000#32, 0x80000000#32⟩ ⟨0x3F800000#32, 0x00000000#32⟩ =
    ⟨0x00000000#32, 0x80000000#32⟩ := by decide +kernel

/-- Section 2.1, N = 16, entries 1, 3, 9, 15. -/
theorem test_root_16 : [root 12 4 1, root 12 4 3, root 12 4 9, root 12 4 15] =
    [⟨0x3F6C835E#32, 0x3EC3EF15#32⟩, ⟨0x3EC3EF15#32, 0x3F6C835E#32⟩, ⟨0xBF6C835E#32, 0xBEC3EF15#32⟩,
      ⟨0x3F6C835E#32, 0xBEC3EF15#32⟩] := by decide +kernel

/-- Section 3.1. -/
theorem test_rev_table : (List.range 8).map (revBits 3) = [0, 4, 2, 6, 1, 5, 3, 7] ∧ revBits 12 2047 = 4094 ∧
    revBits 13 1 = 4096 := by decide

/-! ### Transactions (section 9, R402) -/

/-- R402: BUS_ACCESS comes before BUSY, BUSY before SIZE_MISMATCH. -/
theorem test_check_order :
    firstError ⟨0x10002#18, .four, .read⟩ (running 1 [] .norm 0) = some .busAccess ∧
    firstError (readAt 0x10010#18) (running 1 [] .norm 0) = some .busy ∧
    firstError (readAt 0x10010#18) (idle 1 []) = some .sizeMismatch ∧
    firstError (writeAt 0x0000C#18 13#32) (idle 1 []) = some .invalidSize ∧
    firstError (writeAt 0x00010#18 0x302#32) (idle 2 []) = some .illegalCmd ∧
    firstError (readAt 0x00024#18) (idle 1 []) = some .busAccess ∧
    firstError (writeAt 0x20000#18 0#32) (idle 1 []) = some .busAccess := by decide +kernel

/-- R451: an entry that nothing has written since reset reads as the free value of its offset. -/
theorem test_unwritten_byte_is_free (a : Nat) : State.reset.readByte a = Config.dataInit 0 a := rfl

/-! ### Witnesses: for every statement with hypotheses, concrete values that meet all of them, per clause -/

theorem exists_of_goesTo {o : Host.Outcome State Fault Refusal} {P : State → Prop} [DecidablePred P]
    (h : goesTo o (fun t => decide (P t)) = true) : ∃ t, o = .next t ∧ P t := by
  match o, h with
  | .next t, h => exact ⟨t, rfl, of_decide_eq_true h⟩

/-- An idle block with an event listed. -/
def idleWith (L : Nat) (e : Event) : State := { idle L [] with inputs := [e] }

/-- A block running FWD with an event listed. -/
def runningWith (done : Nat) (e : Event) : State := { running 1 [] .fwd done with inputs := [e] }

theorem witness_DecodeAndEncodeAgree : decodeBytes [0x02#8, 0x0C#8, 0x00#8, 0x00#8] = .ok (.bfly 12#4) ∧
    [0x01#8, 0x00#8, 0x00#8].length ≠ 4 ∧ ([] : List Byte).length ≠ 4 := by decide

theorem witness_StepRunsTheDecodedCommand : decodeWord 0x00000005#32 = .ok .fwd ∧
    (idleWith 1 (.host (cmdWrite 0x00000005#32))).inputs = .host (cmdWrite 0x00000005#32) :: [] := by decide

theorem witness_CommandIssueFollowsTheRule : (running 1 [] .norm 0).busy = true ∧
    ((idle 2 []).busy = false ∧ legalWord 0x00000302#32 (idle 2 []).sizeL.toNat = false) ∧
    ((idle 2 []).busy = false ∧ legalWord 0x00000202#32 (idle 2 []).sizeL.toNat = true) := by decide +kernel

theorem witness_EveryCommandIsAccepted : (idle 2 []).busy = false ∧
    (1 ≤ (1#4).toNat ∧ (1#4).toNat ≤ (idle 2 []).sizeL.toNat) ∧
    (1 ≤ (2#4).toNat ∧ (2#4).toNat ≤ (idle 2 []).sizeL.toNat) := by decide +kernel

theorem witness_CommandsTurnedAway : (running 1 [] .norm 0).busy = true ∧
    ((idle 2 []).busy = false ∧ (0#4).toNat = 0) ∧ ((idle 2 []).busy = false ∧ (idle 2 []).sizeL.toNat < (3#4).toNat) := by
  decide +kernel

theorem witness_EngineStepRunsOnePass : (idle 1 []).busy = false ∧
    ((running 1 [] .fwd 0).busy = true ∧ (running 1 [] .fwd 0).seq[(running 1 [] .fwd 0).pass.toNat]? = some .rev ∧
      (running 1 [] .fwd 0).pass.toNat < 31) ∧
    ((running 1 [] .fwd 2).seq[(running 1 [] .fwd 2).pass.toNat]? = some .norm ∧
      (running 1 [] .fwd 2).pass.toNat + 1 = (running 1 [] .fwd 2).seq.length) ∧
    (running 1 [] .fwd 1).seq[(running 1 [] .fwd 1).pass.toNat]? = some (.bf 1) ∧
    (running 1 [] .inv 0).seq[(running 1 [] .inv 0).pass.toNat]? = some .conj := by decide +kernel

theorem witness_StepIsOneAgentsStep : (idleWith 1 (.host (readAt 0#18))).inputs = .host (readAt 0#18) :: [] ∧
    (idleWith 1 .engine).inputs = .engine :: [] ∧ (idle 1 []).inputs = [] ∧
    (idleWith 1 .reset).inputs = .reset :: [] := by decide

theorem witness_EveryCommandRunsToItsResult : (idle 2 []).busy = false ∧ (idle 2 []).inputs = [] ∧
    ∀ i ∈ [Instr.bitrev, .bfly 1#4, .bfly 2#4, .norm, .conj, .fwd, .inv],
      i.wellFormed (idle 2 []).sizeL.toNat = true := by decide +kernel

/-- FWD at N = 2 with a STATUS read between its passes. -/
def interleaved : State :=
  { running 1 [] .fwd 0 with inputs := [.engine, .host (readAt 0x014#18), .engine] ++ [.engine] }

theorem witness_ResultUnderEveryInterleaving : interleaved.busy = true ∧ interleaved.pass = 0#5 ∧
    Instr.wellFormed interleaved.sizeL.toNat .fwd = true ∧ interleaved.seq = passes .fwd interleaved.sizeL.toNat ∧
    interleaved.inputs = [.engine, .host (readAt 0x014#18), .engine] ++ [.engine] ∧
    Event.reset ∉ [Event.engine, .host (readAt 0x014#18), .engine] ∧
    [Event.engine, .host (readAt 0x014#18), .engine].count .engine + 1 = interleaved.seq.length := by decide +kernel

theorem witness_ForwardEqualsTheStepwiseCommands : (idle 2 []).busy = false := rfl

theorem witness_InverseIsConjugatedForward : (idle 13 [(1, 2)]).busy = false := rfl

theorem witness_BitrevTwiceRestores : (idle 2 [(1, 2), (3, 4)]).busy = false ∧ (0 : Nat) < 2 ^ 0 ∧
    (8191 : Nat) < 2 ^ 13 := by decide

theorem witness_ConjTwiceRestores : (idle 2 [(1, 2), (3, 4)]).busy = false := rfl

theorem witness_ButterflyWritesEveryPair : (1 ≤ 1 ∧ 1 ≤ 2) ∧ (1 ≤ 2 ∧ 2 ≤ 2) ∧
    (1 < 2 ^ 2 / 2 ^ 1 ∧ 0 < 2 ^ (1 - 1)) ∧ (0 < 2 ^ 2 / 2 ^ 2 ∧ 1 < 2 ^ (2 - 1)) ∧ 3 < 2 ^ 2 := by decide

theorem witness_NormCornerCases : (1 ≤ 1 ∧ 1 ≤ 13) ∧ (1 ≤ 13 ∧ 13 ≤ 13) ∧
    (let D := buffer [(0x80000000, 0xFF800000), (0x7F800001, 0x7F7FFFFF)]
     isZero (entryPart (D 0) .re) = true ∧ isInf (entryPart (D 0) .im) = true ∧ isNaN (entryPart (D 1) .re) = true ∧
      isFinite (entryPart (D 1) .im) = true) := by decide

theorem witness_RoundingIsNearestTiesToEven : (-(2 ^ 128 - 2 ^ 103) : Int) ≠ 0 ∧ (1 : Int) ≠ 0 := by decide

theorem witness_AdditionFollowsTheRule : isNaN 0x7FC00001#32 = true ∧
    (isInf 0x7F800000#32 = true ∧ isInf 0xFF800000#32 = true) ∧
    (isInf 0x7F800000#32 = true ∧ isFinite 0x7F7FFFFF#32 = true) ∧
    (scaled 0x3F800000#32 + scaled 0xBF800000#32 = 0 ∧ scaled 0x80000000#32 + scaled 0x80000000#32 = 0) ∧
    scaled 0x3F800000#32 + scaled 0x33800000#32 ≠ 0 := by decide +kernel

/-- The same sums as values. -/
theorem witness_AdditionFollowsTheRule_values : value 0x80000000#32 + value 0x80000000#32 = 0 ∧
    value 0x3F800000#32 + value 0x33800000#32 ≠ 0 := by
  have h1 : scaled 0x80000000#32 = 0 := by decide +kernel
  have h2 : 0 < scaled 0x3F800000#32 := by decide +kernel
  have h3 : 0 < scaled 0x33800000#32 := by decide +kernel
  have p2 : 0 < value 0x3F800000#32 := div_pos (by exact_mod_cast h2) (by positivity)
  have p3 : 0 < value 0x33800000#32 := div_pos (by exact_mod_cast h3) (by positivity)
  exact ⟨by simp [value, h1], (add_pos p2 p3).ne'⟩

theorem witness_MultiplicationFollowsTheRule : isNaN 0xFFC00005#32 = true ∧
    (isNaN 0x7F800000#32 = false ∧ isNaN 0x80000000#32 = false ∧ isInf 0x7F800000#32 = true ∧
      isZero 0x80000000#32 = true) ∧
    (isFinite 0x00000001#32 = true ∧ isFinite 0x3F000000#32 = true ∧ isFinite 0x80000000#32 = true) := by decide

/-- The same products as values: one zero, one not. -/
theorem witness_MultiplicationFollowsTheRule_values : value 0x80000000#32 * value 0x3F000000#32 = 0 ∧
    value 0x00000001#32 * value 0x3F000000#32 ≠ 0 := by
  have h1 : scaled 0x80000000#32 = 0 := by decide +kernel
  have h2 : 0 < scaled 0x00000001#32 := by decide +kernel
  have h3 : 0 < scaled 0x3F000000#32 := by decide +kernel
  have p2 : 0 < value 0x00000001#32 := div_pos (by exact_mod_cast h2) (by positivity)
  have p3 : 0 < value 0x3F000000#32 := div_pos (by exact_mod_cast h3) (by positivity)
  exact ⟨by simp [value, h1], (mul_pos p2 p3).ne'⟩

theorem witness_SubtractionFollowsTheRule : isFinite 0x80000000#32 = true ∧ isFinite 0x7F7FFFFF#32 = true := by decide

theorem witness_NegationFlipsTheSignBit : 0 < 31 ∧ 30 < 31 := by decide

theorem witness_ArithmeticNaNIsCanonical : isNaN (fadd 0x7F800000#32 0xFF800000#32) = true ∧
    isNaN (fsub 0x7F800000#32 0x7F800000#32) = true ∧ isNaN (fmul 0x7F800000#32 0x00000000#32) = true := by
  decide +kernel

theorem witness_SubnormalSumsAreExact : expOf 0x007FFFFF#32 = 0 ∧ expOf 0x80000001#32 = 0 := by decide

theorem witness_ExactCasesOfMultiplication : isNaN 0xFF800000#32 = false ∧ isFinite 0x80000000#32 = true ∧
    isFinite 0x7F7FFFFF#32 = true := by decide

theorem witness_BitReversalTable : 8191 < 2 ^ 13 ∧ 0 < 13 ∧ 12 < 13 := by decide

theorem witness_RootRomIsCorrectlyRounded : (1 ≤ 1 ∧ 1 ≤ 13 ∧ 1 < 2 ^ 1) ∧ (1 ≤ 13 ∧ 13 ≤ 13 ∧ 8191 < 2 ^ 13) := by
  decide

theorem witness_RootsDependOnTheAngleAlone : 1 ≤ 1 ∧ 1 ≤ 12 ∧ 12 ≤ 12 ∧ 1 < 2 ^ 1 := by decide

theorem witness_RootSymmetries : (1 ≤ 1 ∧ 1 ≤ 13 ∧ 13 ≤ 13) ∧ 2 ≤ 2 ∧ 3 ≤ 3 ∧
    (0 < 1 ∧ 1 < 2 ^ 3 ∧ 1 ≠ 2 ^ 3 / 2) ∧ (0 < 7 ∧ 7 < 2 ^ 3 ∧ 7 ≠ 2 ^ 3 / 2) := by decide

theorem witness_NormalisationConstants : (1 ≤ 1 ∧ 1 ≤ 13) ∧ (1 ≤ 13 ∧ 13 ≤ 13) := by decide

theorem witness_ChecksRunInOrder :
    ruleError ⟨0x00000#18, .two, .read⟩ (idle 1 []) = some .busAccess ∧
    ruleError ⟨0x00001#18, .four, .read⟩ (idle 1 []) = some .busAccess ∧
    ruleError (readAt 0x00024#18) (idle 1 []) = some .busAccess ∧
    ruleError (readAt 0x0FFFC#18) (idle 1 []) = some .busAccess ∧
    ruleError (writeAt 0x00020#18 0#32) (idle 1 []) = some .busAccess ∧
    ruleError (readAt 0x10000#18) (running 1 [] .norm 0) = some .busy ∧
    ruleError (readAt 0x1FFFC#18) (idle 1 []) = some .sizeMismatch ∧
    ruleError (writeAt 0x00010#18 0#32) (idle 1 []) = some .illegalCmd ∧
    ruleError (writeAt 0x0000C#18 0#32) (idle 1 []) = some .invalidSize ∧
    (ruleError (writeAt 0x0000C#18 12#32) (idle 1 []) = none ∧
      (writeAt 0x0000C#18 12#32).offset ≠ 0x010#18 ∧ (writeAt 0x0000C#18 12#32).offset ≠ 0x018#18) ∧
    (ruleError (writeAt 0x00010#18 0x102#32) (idle 1 []) = none ∧ (writeAt 0x00010#18 0x102#32).isWrite = true ∧
      (writeAt 0x00010#18 0x102#32).offset = 0x010#18) := by decide +kernel

theorem witness_RaiseRecordsTheFirstError : (idle 1 []).errCode = none ∧
    (raise .busy (readAt 0x10000#18) (idle 1 [])).errCode ≠ none := by decide

theorem witness_OnlyErrWriteAndResetClearTheRecord :
    let s : State := { idleWith 1 (.host (readAt 0x10002#18)) with errCode := some .illegalCmd }
    (∃ t, step s = .next t ∧ t.errMulti = true) ∧ s.errCode = some .illegalCmd ∧ s.inputs.head? ≠ some .reset ∧
      (∀ w, s.inputs.head? ≠ some (.host (writeAt 0x018#18 w))) :=
  ⟨exists_of_goesTo (by decide +kernel), rfl, by decide, fun w h => by simp [idleWith, readAt, writeAt] at h⟩

theorem witness_OnlyErrWriteAndResetClearTheRecord_reset :
    let s : State := { idleWith 1 .reset with errCode := some .busy }
    (∃ t, step s = .next t ∧ t.errCode = none) ∧ s.inputs.head? = some .reset :=
  ⟨exists_of_goesTo (by decide +kernel), rfl⟩

theorem witness_MisalignedOrNarrowIsRefused : (0x30001#18).toNat % 4 ≠ 0 ∧ Size.one ≠ .four ∧ Size.two ≠ .four := by
  decide

theorem witness_DataReadReturnsTheStoredBits : (idle 1 []).busy = false ∧
    (0 < (idle 1 []).size ∧ 0 < 8192 ∧ (0x10000#18).toNat = 0x10000 + 8 * 0 ∧ (0x10004#18).toNat = 0x10000 + 8 * 0 + 4) ∧
    (let s : State := { State.reset with lmax := 13#4, sizeL := 13#4 }
     s.busy = false ∧ 8191 < s.size ∧ 8191 < 8192 ∧ (0x1FFF8#18).toNat = 0x10000 + 8 * 8191 ∧
      (0x1FFFC#18).toNat = 0x10000 + 8 * 8191 + 4) := by decide +kernel

theorem witness_DataWriteStoresItsBits : (idle 1 []).busy = false ∧ 1 < (idle 1 []).size ∧ 1 < 8192 ∧
    (0x10008#18).toNat = 0x10000 + 8 * 1 ∧ (0x1000C#18).toNat = 0x10000 + 8 * 1 + 4 := by decide +kernel

theorem witness_RevWindow : ((0x30004#18).toNat % 4 = 0 ∧ 0x30000 ≤ (0x30004#18).toNat ∧
      ((0x30004#18).toNat - 0x30000) / 4 < (idle 1 []).size) ∧
    ((0x30008#18).toNat % 4 = 0 ∧ (idle 1 []).size ≤ ((0x30008#18).toNat - 0x30000) / 4) ∧
    ((0x3FFFC#18).toNat % 4 = 0 ∧ (idle 1 []).size ≤ ((0x3FFFC#18).toNat - 0x30000) / 4) := by decide +kernel

theorem witness_RootWindow : ((0x2000C#18).toNat % 4 = 0 ∧ 0x20000 ≤ (0x2000C#18).toNat ∧ (0x2000C#18).toNat < 0x30000 ∧
      ((0x2000C#18).toNat - 0x20000) / 8 < (idle 1 []).size) ∧
    ((0x20010#18).toNat % 4 = 0 ∧ (idle 1 []).size ≤ ((0x20010#18).toNat - 0x20000) / 8) ∧
    ((0x2FFFC#18).toNat % 4 = 0 ∧ (0x2FFFC#18).toNat < 0x30000 ∧
      (idle 1 []).size ≤ ((0x2FFFC#18).toNat - 0x20000) / 8) := by decide +kernel

theorem witness_ReadsHaveNoSideEffects : ruleError ⟨0x014#18, .four, .read⟩ (running 1 [] .norm 0) = none ∧
    ruleError ⟨0x10000#18, .four, .read⟩ (running 1 [] .norm 0) = some .busy := by decide +kernel

theorem witness_SizeRegister : (idle 1 []).lmax.toNat ≤ 13 ∧ (running 1 [] .norm 0).busy = true ∧
    ((idle 1 []).busy = false ∧ (0#32).toNat < 1) ∧ (idle 1 []).lmax.toNat < (13#32).toNat ∧
    (idle 1 []).lmax.toNat < (0x10001#32).toNat ∧
    (1 ≤ (1#32).toNat ∧ (1#32).toNat ≤ (idle 1 []).lmax.toNat) ∧ (12#32).toNat ≤ (idle 1 []).lmax.toNat := by
  decide +kernel

theorem witness_ReadOnlyRegisters : 0x000#18 ∈ [0x000#18, 0x004#18, 0x01C#18, 0x020#18] ∧
    0x020#18 ∈ [0x000#18, 0x004#18, 0x01C#18, 0x020#18] := by decide

/-- DONE rises in the step of a last pass. -/
theorem witness_DoneChangesOnlyByRule_rise : (runningWith 2 .engine).done = false ∧
    ∃ t, step (runningWith 2 .engine) = .next t ∧ t.done = true :=
  ⟨rfl, exists_of_goesTo (by decide +kernel)⟩

/-- DONE falls by a STATUS write, by an accepted command and by reset. -/
theorem witness_DoneChangesOnlyByRule_fall :
    let s : Event → State := fun e => { idleWith 1 e with done := true }
    (∃ t, step (s (.host (writeAt 0x014#18 0x00000002#32))) = .next t ∧ t.done = false) ∧
    (∃ t, step (s (.host (writeAt 0x010#18 0x00000003#32))) = .next t ∧ t.done = false) ∧
    (∃ t, step (s .reset) = .next t ∧ t.done = false) :=
  ⟨exists_of_goesTo (by decide +kernel), exists_of_goesTo (by decide +kernel), exists_of_goesTo (by decide +kernel)⟩

theorem witness_EntriesBeyondTheBufferAreUntouched :
    ((∃ t, step (runningWith 0 .engine) = .next t ∧ t.pass = 1#5) ∧
      (runningWith 0 .engine).inputs.head? ≠ some .reset ∧ (runningWith 0 .engine).size ≤ 2) ∧
    (Instr.wellFormed 2 (.bfly 2#4) = true ∧ .bf 2 ∈ passes (.bfly 2#4) 2) ∧
    (0x10000 ≤ (0x10010#18).toNat ∧ (0x10010#18).toNat < 0x20000 ∧
      (idle 1 []).size ≤ ((0x10010#18).toNat - 0x10000) / 8) :=
  ⟨⟨exists_of_goesTo (by decide +kernel), by decide, by decide +kernel⟩, by decide, by decide +kernel⟩

/-- Two buffers that agree on their two entries and differ beyond. -/
theorem witness_EntriesBeyondTheBufferAreUntouched_buffers :
    (∀ k, k < 2 ^ 1 → buffer [(1, 2), (3, 4)] k = buffer [(1, 2), (3, 4), (5, 6)] k) ∧
    buffer [(1, 2), (3, 4)] 2 ≠ buffer [(1, 2), (3, 4), (5, 6)] 2 := by decide

theorem witness_OnlyResetEndsACommandEarly : (runningWith 2 .engine).busy = true ∧
    ((0x10000#18).toNat % 4 = 0 ∧ 0x10000 ≤ (0x10000#18).toNat ∧ (0x10000#18).toNat < 0x20000) ∧
    (0x1FFFC#18).toNat < 0x20000 ∧ (∃ t, step (runningWith 2 .engine) = .next t ∧ t.busy = false) ∧
    (∃ t, step (runningWith 0 .reset) = .next t ∧ t.busy = false) :=
  ⟨rfl, by decide, by decide, exists_of_goesTo (by decide +kernel), exists_of_goesTo (by decide +kernel)⟩

theorem witness_BusyBlockHidesItsData : (running 1 [(1, 2), (3, 4)] .inv 3).busy = true := rfl

theorem witness_ResetStepSetsEveryRegister : (runningWith 1 .reset).inputs = .reset :: [] := rfl

/-- A block in the middle of FWD meets the invariant. -/
theorem running_inv : Inv (runningWith 2 .engine) where
  lmax_legal := by decide
  size_legal := by decide
  data_canonical := by decide +kernel
  data_in_ram := by decide +kernel
  pass_busy := by decide
  pass_idle := by decide
  done_idle := by decide
  seq_last := .inr ⟨.fwd, 1, rfl, rfl, by decide, by decide, rfl, fun _ => rfl⟩
  record_clear := fun _ => ⟨rfl, rfl, rfl⟩
  addr_reserved := by decide

theorem witness_EveryStepKeepsTheInvariant : Inv (runningWith 2 .engine) ∧
    ∃ t, step (runningWith 2 .engine) = .next t ∧ t.busy = false :=
  ⟨running_inv, exists_of_goesTo (by decide +kernel)⟩

theorem witness_TheBlockNeverStops : Inv (runningWith 2 .engine) := running_inv

end Sys2Proof.Tests
end

section
/-! PROOFS. Correct rounding: patterns, values, and the rounding of a real between two quotients (R200, R202, R206). -/

namespace Sys2Proof.Machine

/-! ### Patterns and values -/

theorem value_eq_zero_iff (x : Word) : value x = 0 ↔ magnitude x = 0 := by
  unfold value scaled
  split <;> simp

theorem signOf_fneg (x : Word) : signOf (fneg x) = !signOf x := by
  simp [signOf, fneg]

theorem fneg_lowBits (x : Word) (i n : Nat) (h : i + n ≤ 31) : (fneg x).extractLsb' i n = x.extractLsb' i n := by
  apply BitVec.eq_of_getLsbD_eq
  intro j hj
  have hmask : ∀ b : Nat, b < 31 → (0x80000000#32).getLsbD b = false := by decide
  simp [fneg, BitVec.getLsbD_extractLsb', hmask (i + j) (by omega)]

@[simp] theorem expOf_fneg (x : Word) : expOf (fneg x) = expOf x := by
  rw [expOf, fneg_lowBits x 23 8 (by norm_num)]; rfl

@[simp] theorem fracOf_fneg (x : Word) : fracOf (fneg x) = fracOf x := by
  rw [fracOf, fneg_lowBits x 0 23 (by norm_num)]; rfl

@[simp] theorem magnitude_fneg (x : Word) : magnitude (fneg x) = magnitude x := by simp [magnitude]

@[simp] theorem isFinite_fneg (x : Word) : isFinite (fneg x) = isFinite x := by simp [isFinite]

@[simp] theorem fneg_fneg (x : Word) : fneg (fneg x) = x := by simp [fneg]

/-- Negation is exact (R206). -/
@[simp] theorem value_fneg (x : Word) : value (fneg x) = -value x := by
  unfold value scaled
  rw [signOf_fneg, magnitude_fneg]
  cases signOf x <;> simp [neg_div]

/-- A pattern is its sign, exponent and fraction (R200). -/
theorem eq_of_fields_eq {x y : Word} (hs : signOf x = signOf y) (he : expOf x = expOf y) (hf : fracOf x = fracOf y) :
    x = y := by
  rw [signOf_eq, signOf_eq, decide_eq_decide] at hs
  rw [expOf_eq, expOf_eq] at he
  rw [fracOf_eq, fracOf_eq] at hf
  have := x.isLt
  have := y.isLt
  exact BitVec.eq_of_toNat_eq (by omega)

theorem magnitude_lt_of_expOf_lt {x y : Word} (h : expOf x < expOf y) : magnitude x < magnitude y := by
  have hx : magnitude x < 2 ^ 23 * 2 ^ expOf x := by
    have := fracOf_lt x
    unfold magnitude
    split
    · rename_i h0; rw [h0]; omega
    · rename_i h0
      calc (2 ^ 23 + fracOf x) * 2 ^ (expOf x - 1) < 2 ^ 24 * 2 ^ (expOf x - 1) :=
            Nat.mul_lt_mul_of_pos_right (by omega) (by positivity)
        _ = 2 ^ 23 * 2 ^ expOf x := by
            obtain ⟨e, he⟩ := Nat.exists_eq_succ_of_ne_zero h0
            rw [he, Nat.succ_sub_one, Nat.pow_succ 2 e]; omega
  have hy : 2 ^ 23 * 2 ^ (expOf y - 1) ≤ magnitude y := by
    rw [magnitude, if_neg (by omega)]
    exact Nat.mul_le_mul_right _ (by omega)
  exact lt_of_lt_of_le hx ((Nat.mul_le_mul_left _ (Nat.pow_le_pow_right (by norm_num) (by omega))).trans hy)

theorem magnitude_inj {x y : Word} (h : magnitude x = magnitude y) : expOf x = expOf y ∧ fracOf x = fracOf y := by
  have he : expOf x = expOf y := by
    rcases Nat.lt_trichotomy (expOf x) (expOf y) with hlt | heq | hgt
    · exact absurd h (magnitude_lt_of_expOf_lt hlt).ne
    · exact heq
    · exact absurd h (magnitude_lt_of_expOf_lt hgt).ne'
  refine ⟨he, ?_⟩
  unfold magnitude at h
  rw [he] at h
  split at h
  · exact h
  · exact Nat.add_left_cancel (Nat.eq_of_mul_eq_mul_right (by positivity) h)

/-- Two patterns of one value are the same, but for the two zeros (R201). -/
theorem eq_of_value_eq {x y : Word} (h : value x = value y) (h0 : value x ≠ 0) : x = y := by
  have hm : magnitude x ≠ 0 := fun hc => h0 ((value_eq_zero_iff x).2 hc)
  have hsc : scaled x = scaled y := by
    unfold value at h
    field_simp at h
    exact_mod_cast h
  have hsm : signOf x = signOf y ∧ magnitude x = magnitude y := by
    unfold scaled at hsc
    cases hx : signOf x <;> cases hy : signOf y <;> simp [hx, hy] at hsc ⊢ <;> omega
  obtain ⟨he, hf⟩ := magnitude_inj hsm.2
  exact eq_of_fields_eq hsm.1 he hf

/-! ### Correct rounding of a real number -/

/-- `x` is the correct rounding of `ρ`, and a zero for an exact zero only: `ρ` does not underflow. Then `ρ` determines
the pattern `x` (`Rounds.unique`), which `IsRoundedReal` alone leaves open between the two zeros. -/
def Rounds (ρ : ℝ) (x : Word) : Prop := IsRoundedReal ρ x ∧ (value x = 0 → ρ = 0)

theorem Rounds.unique {ρ : ℝ} {x y : Word} (hx : Rounds ρ x) (hy : Rounds ρ y) : x = y := by
  obtain ⟨⟨hfx, hnx, hzx⟩, hux⟩ := hx
  obtain ⟨⟨hfy, hny, hzy⟩, -⟩ := hy
  by_cases h0 : ρ = 0
  · rw [hzx h0, hzy h0]
  · refine eq_of_value_eq ?_ fun hc => h0 (hux hc)
    by_contra hne
    exact lt_asymm (hnx y hfy (Ne.symm hne)) (hny x hfx hne)

/-- A rounded value is finite and its own rounding. -/
theorem rounds_of_value_eq {ρ : ℝ} {x : Word} (hf : isFinite x = true) (hv : (value x : ℝ) = ρ)
    (hz : ρ = 0 → x = 0#32) : Rounds ρ x := by
  subst hv
  refine ⟨⟨hf, fun y _ hne => ?_, hz⟩, fun h => by rw [h]; simp⟩
  rw [sub_self, abs_zero, abs_pos, sub_ne_zero]
  exact_mod_cast hne

/-- Correct rounding is symmetric (R57), except for the sign of an exact zero. -/
theorem Rounds.neg {ρ : ℝ} {x : Word} (h : Rounds ρ x) (h0 : ρ ≠ 0) : Rounds (-ρ) (fneg x) := by
  obtain ⟨⟨hf, hn, -⟩, hu⟩ := h
  refine ⟨⟨by simpa using hf, fun y hy hne => ?_, fun hc => absurd (neg_eq_zero.1 hc) h0⟩,
    fun hc => absurd (hu (by simpa using hc)) h0⟩
  have hlt := hn (fneg y) (by simpa using hy) fun hc => hne (by rw [value_fneg, ← hc, value_fneg, neg_neg])
  have hswap : ∀ v : ℝ, |(-v) - ρ| = |v - -ρ| := fun v => by rw [← abs_neg]; congr 1; ring
  rw [value_fneg y] at hlt
  rw [value_fneg x]
  push_cast at hlt ⊢
  rw [hswap] at hlt
  rwa [← hswap, neg_neg]

/-- The rounded quotient is a nearest value (R202), on the reals. -/
theorem roundSigned_nearest {m q : Nat} (hm : m ≠ 0) (ho : m < (2 ^ 128 - 2 ^ 103) * 2 ^ q) (y : Word) :
    |(value (roundSigned false m q) : ℝ) - m / 2 ^ q| ≤ |(value y : ℝ) - m / 2 ^ q| := by
  obtain ⟨hs, -, hmag, -⟩ := magnitude_roundSigned false hm ho
  have hx : scaled (roundSigned false m q) = significand m q * 2 ^ spacing m q := by
    rw [scaled, hs, hmag]; push_cast; simp
  have hdist : ∀ z : Word, |(value z : ℝ) - m / 2 ^ q| =
      |((scaled z * 2 ^ q - m * 2 ^ 149 : Int) : ℝ)| / 2 ^ (149 + q) := by
    intro z
    rw [← abs_of_pos (a := (2 : ℝ) ^ (149 + q)) (by positivity), ← abs_div, value]
    push_cast
    rw [pow_add]
    congr 1
    field_simp
    ring
  rw [hdist, hdist]
  refine div_le_div_of_nonneg_right ?_ (by positivity)
  rw [hx]
  exact_mod_cast (significand_nearest hm y).1

/-- A point that is a nearest one to both ends of an interval is the strictly nearest one to its inner points. -/
theorem abs_sub_lt_of_nearest_ends {x y a b r : ℝ} (har : a < r) (hrb : r < b) (ha : |x - a| ≤ |y - a|)
    (hb : |x - b| ≤ |y - b|) (hne : y ≠ x) : |x - r| < |y - r| := by
  rw [← sq_le_sq] at ha hb
  rw [← sq_lt_sq]
  rcases lt_or_gt_of_ne hne with hlt | hgt
  · nlinarith [mul_pos (sub_pos.2 hlt) (sub_pos.2 har)]
  · nlinarith [mul_pos (sub_pos.2 hgt) (sub_pos.2 hrb)]

/-- A real between two quotients that round to the same pattern rounds to that pattern. -/
theorem rounds_of_bracket {a b q : Nat} {ρ : ℝ} {x : Word} (ha : a ≠ 0) (har : a / 2 ^ q < ρ)
    (hrb : ρ < b / 2 ^ q) (ho : b < (2 ^ 128 - 2 ^ 103) * 2 ^ q) (hxa : roundSigned false a q = x)
    (hxb : roundSigned false b q = x) (hx : magnitude x ≠ 0) : Rounds ρ x := by
  have hab : a < b := by
    have := har.trans hrb
    rw [div_lt_div_iff_of_pos_right (by positivity)] at this
    exact_mod_cast this
  have hρ : 0 < ρ := lt_of_le_of_lt (by positivity) har
  refine ⟨⟨?_, fun y _ hne => ?_, fun hc => absurd hc hρ.ne'⟩, fun hc => absurd ((value_eq_zero_iff x).1 hc) hx⟩
  · rw [← hxa]; exact (magnitude_roundSigned false ha (hab.trans ho)).2.1
  · have h1 := roundSigned_nearest ha (hab.trans ho) y
    have h2 := roundSigned_nearest (by omega) ho y
    rw [hxa] at h1
    rw [hxb] at h2
    exact abs_sub_lt_of_nearest_ends har hrb h1 h2 (by exact_mod_cast hne)

end Sys2Proof.Machine
end

section
/-! PROOFS. The fixed-point cosine and sine of the root table against the exact ones (log entry 3). -/

namespace Sys2Proof.Machine

/-! ### The Taylor polynomials of the root table -/

open Finset in
/-- The partial sums of an alternating series with falling terms lie within the next term of the limit. -/
theorem alternating_partial_sum {f : ℕ → ℝ} {l : ℝ} (hf : Antitone f)
    (hl : HasSum (fun i => (-1) ^ i * f i) l) (k : ℕ) :
    |∑ i ∈ range (2 * k + 1), (-1) ^ i * f i - l| ≤ f (2 * k + 1) := by
  have hub := hf.tendsto_le_alternating_series hl.tendsto_sum_nat k
  have hlb := hf.alternating_series_le_tendsto hl.tendsto_sum_nat (k + 1)
  rw [show 2 * (k + 1) = 2 * k + 1 + 1 by ring, sum_range_succ, pow_succ, pow_mul] at hlb
  rw [abs_le]
  constructor <;> norm_num at hlb ⊢ <;> linarith

/-- The polynomial that `fixSeries` evaluates, on the reals. -/
noncomputable def realSeries (y : ℝ) (divisors : List ℕ) : ℝ :=
  divisors.foldr (fun (d : ℕ) acc => 1 - y * acc / d) 1

section taylor
variable {θ : ℝ} (h0 : 0 ≤ θ) (h1 : θ ≤ 1)
include h0 h1

theorem antitone_taylor_terms (e : ℕ → ℕ) (he : Monotone e) :
    Antitone fun i => θ ^ e i / ((e i).factorial : ℝ) := by
  intro i j hij
  have hfac : ((e i).factorial : ℝ) ≤ (e j).factorial := by exact_mod_cast Nat.factorial_le (he hij)
  exact div_le_div₀ (by positivity) (pow_le_pow_of_le_one h0 h1 (he hij)) (by positivity) hfac

/-- Eleven terms of the series come within 2^-64 of its limit. -/
theorem taylor_error {e : ℕ → ℕ} {l : ℝ} (he : Monotone e) (hfac : 2 ^ 64 ≤ (e 11).factorial)
    (hl : HasSum (fun i => (-1) ^ i * (θ ^ e i / ((e i).factorial : ℝ))) l) :
    |∑ i ∈ Finset.range 11, (-1) ^ i * (θ ^ e i / ((e i).factorial : ℝ)) - l| ≤ 1 / 2 ^ 64 :=
  (alternating_partial_sum (antitone_taylor_terms h0 h1 e he) hl 5).trans
    (div_le_div₀ (by norm_num) (pow_le_one₀ h0 h1) (by positivity) (by exact_mod_cast hfac))

theorem cos_realSeries : |realSeries (θ ^ 2) cosDivisors - Real.cos θ| ≤ 1 / 2 ^ 64 := by
  have hser : realSeries (θ ^ 2) cosDivisors =
      ∑ i ∈ Finset.range 11, (-1) ^ i * (θ ^ (2 * i) / ((2 * i).factorial : ℝ)) := by
    simp only [realSeries, cosDivisors, List.foldr_cons, List.foldr_nil, Finset.sum_range_succ, Finset.sum_range_zero,
      Nat.factorial]
    push_cast
    ring
  rw [hser]
  exact taylor_error h0 h1 (fun i j h => Nat.mul_le_mul_left 2 h) (by norm_num [Nat.factorial])
    (by simpa [mul_div_assoc] using Real.hasSum_cos θ)

theorem sin_realSeries : |θ * realSeries (θ ^ 2) sinDivisors - Real.sin θ| ≤ 1 / 2 ^ 64 := by
  have hser : θ * realSeries (θ ^ 2) sinDivisors =
      ∑ i ∈ Finset.range 11, (-1) ^ i * (θ ^ (2 * i + 1) / ((2 * i + 1).factorial : ℝ)) := by
    simp only [realSeries, sinDivisors, List.foldr_cons, List.foldr_nil, Finset.sum_range_succ, Finset.sum_range_zero,
      Nat.factorial]
    push_cast
    ring
  rw [hser]
  exact taylor_error h0 h1 (fun i j h => Nat.succ_le_succ (Nat.mul_le_mul_left 2 h)) (by norm_num [Nat.factorial])
    (by simpa [mul_div_assoc] using Real.hasSum_sin θ)

end taylor

/-! ### The fixed-point evaluation -/

theorem fixOne_cast : (fixOne : ℝ) = 2 ^ 64 := by norm_num [fixOne, fixBits]

theorem fixOne_pos : (0 : ℝ) < fixOne := by rw [fixOne_cast]; positivity

/-- A natural quotient falls short of the real one by less than 1. -/
theorem natDiv_bounds (m d : ℕ) : (m : ℝ) / d - 1 < (m / d : ℕ) ∧ ((m / d : ℕ) : ℝ) ≤ m / d := by
  rw [← Nat.floor_div_eq_div (K := ℝ)]
  exact ⟨Nat.sub_one_lt_floor _, Nat.floor_le (by positivity)⟩

/-- `fixSeries` at any scale `F`. The scale is a variable here: a step that unfolds the numeral `fixOne` is unary. -/
def scaledSeries (F sq : ℕ) (divisors : List ℕ) : ℕ :=
  divisors.foldr (fun d acc => F - sq * acc / F / d) F

theorem fixSeries_eq_scaledSeries (sq : ℕ) (ds : List ℕ) : fixSeries sq ds = scaledSeries fixOne sq ds := rfl

theorem scaledSeries_cons (F sq d : ℕ) (ds : List ℕ) :
    scaledSeries F sq (d :: ds) = F - sq * scaledSeries F sq ds / F / d := rfl

theorem scaledSeries_le (F sq : ℕ) (ds : List ℕ) : scaledSeries F sq ds ≤ F := by
  cases ds with
  | nil => exact le_refl _
  | cons d ds => exact Nat.sub_le _ _

theorem realSeries_cons (y : ℝ) (d : ℕ) (ds : List ℕ) :
    realSeries y (d :: ds) = 1 - y * realSeries y ds / d := rfl

/-- The error of a fixed-point product, from the errors of its factors, for `u ≤ 1` and `c ≤ F`. -/
theorem fixed_product_error {u v F b c ε δ : ℝ} (hF : 0 < F) (hu0 : 0 ≤ u) (hu1 : u ≤ 1) (hc0 : 0 ≤ c)
    (hc1 : c ≤ F) (hv : |F * v - c| ≤ ε) (hu : |F * u - b| ≤ δ) : |F * (u * v) - b * c / F| ≤ ε + δ := by
  have hsplit : F * (u * v) - b * c / F = u * (F * v - c) + c / F * (F * u - b) := by field_simp; ring
  have h1 : |u * (F * v - c)| ≤ 1 * ε := by
    rw [abs_mul, abs_of_nonneg hu0]
    exact mul_le_mul hu1 hv (abs_nonneg _) (by norm_num)
  have h2 : |c / F * (F * u - b)| ≤ 1 * δ := by
    rw [abs_mul, abs_of_nonneg (div_nonneg hc0 hF.le)]
    exact mul_le_mul ((div_le_one hF).2 hc1) hu (abs_nonneg _) (by norm_num)
  rw [hsplit]
  linarith [abs_add_le (u * (F * v - c)) (c / F * (F * u - b))]

/-- A level of the polynomial halves the error so far and adds at most one unit. -/
theorem fixed_level_error {F sq acc d : ℕ} {y a : ℝ} (hF : 0 < F) (hy0 : 0 ≤ y) (hy1 : y ≤ 1) (hsq : sq ≤ F)
    (hacc : acc ≤ F) (hd : 2 ≤ d) (herr : |F * y - sq| ≤ 5) (ha : |F * a - acc| ≤ 7) :
    |F * (1 - y * a / d) - (F - sq * acc / F / d : ℕ)| ≤ 7 := by
  have hd' : (2 : ℝ) ≤ d := by exact_mod_cast hd
  have hprod := fixed_product_error (by exact_mod_cast hF) hy0 hy1 (Nat.cast_nonneg _) (by exact_mod_cast hacc) ha herr
  have hle : sq * acc / F / d ≤ F := (Nat.div_le_self _ _).trans (Nat.div_le_of_le_mul (Nat.mul_le_mul hsq hacc))
  have hfloor := natDiv_bounds (sq * acc) (F * d)
  rw [Nat.cast_sub hle, Nat.div_div_eq_div_mul]
  rw [Nat.cast_mul, Nat.cast_mul, ← div_div] at hfloor
  have hdiv : |F * (y * a) / d - sq * acc / F / d| ≤ 6 := by
    rw [← sub_div, abs_div, abs_of_pos (a := (d : ℝ)) (by linarith), div_le_iff₀ (by linarith)]
    linarith
  have hexpand : F * (1 - y * a / d) = F - F * (y * a) / d := by ring
  rw [hexpand]
  rw [abs_le] at hdiv ⊢
  constructor <;> linarith

theorem scaledSeries_error {F sq : ℕ} {y : ℝ} (hF : 0 < F) (hy0 : 0 ≤ y) (hy1 : y ≤ 1) (hsq : sq ≤ F)
    (herr : |F * y - sq| ≤ 5) {ds : List ℕ} (hds : ∀ d ∈ ds, 2 ≤ d) :
    |F * realSeries y ds - scaledSeries F sq ds| ≤ 7 := by
  induction ds with
  | nil => simp [realSeries, scaledSeries]
  | cons d ds ih =>
    rw [scaledSeries_cons, realSeries_cons]
    exact fixed_level_error hF hy0 hy1 hsq (scaledSeries_le F sq ds) (hds d List.mem_cons_self) herr
      (ih fun c hc => hds c (List.mem_cons_of_mem _ hc))

theorem two_le_cosDivisors : ∀ d ∈ cosDivisors, 2 ≤ d := by decide

theorem two_le_sinDivisors : ∀ d ∈ sinDivisors, 2 ≤ d := by decide

section angle
variable {F x : ℕ} {θ : ℝ} (hF : 0 < F) (h0 : 0 ≤ θ) (h1 : θ ≤ 1) (hlo : x ≤ F * θ) (hhi : F * θ < x + 2)
include hF h0 h1 hlo hhi

theorem fixed_square_error : x * x / F ≤ F ∧ |F * θ ^ 2 - (x * x / F : ℕ)| ≤ 5 := by
  have hF' : (0 : ℝ) < F := by exact_mod_cast hF
  have hxF : x ≤ F := by
    have := hlo.trans (mul_le_of_le_one_right hF'.le h1)
    exact_mod_cast this
  refine ⟨Nat.div_le_of_le_mul (Nat.mul_le_mul hxF hxF), ?_⟩
  have herr : |F * θ - x| ≤ 2 := by rw [abs_le]; constructor <;> linarith
  have hprod := fixed_product_error hF' h0 h1 (Nat.cast_nonneg _) (by exact_mod_cast hxF) herr herr
  have hfloor := natDiv_bounds (x * x) F
  rw [Nat.cast_mul] at hfloor
  rw [← sq] at hprod
  rw [abs_le] at hprod ⊢
  constructor <;> linarith

/-- The cosine and sine series at scale `F` lie within 7 and 10 units of the polynomials. -/
theorem scaled_cosSin_error :
    |F * realSeries (θ ^ 2) cosDivisors - scaledSeries F (x * x / F) cosDivisors| ≤ 7 ∧
    |F * (θ * realSeries (θ ^ 2) sinDivisors) - (x * scaledSeries F (x * x / F) sinDivisors / F : ℕ)| ≤ 10 := by
  have hF' : (0 : ℝ) < F := by exact_mod_cast hF
  obtain ⟨hsq, herr⟩ := fixed_square_error hF h0 h1 hlo hhi
  have hy1 : θ ^ 2 ≤ 1 := pow_le_one₀ h0 h1
  have hsin := scaledSeries_error hF (sq_nonneg θ) hy1 hsq herr two_le_sinDivisors
  have hprod := fixed_product_error hF' h0 h1 (Nat.cast_nonneg _)
    (by exact_mod_cast scaledSeries_le F (x * x / F) sinDivisors) hsin
    (show |F * θ - x| ≤ 2 by rw [abs_le]; constructor <;> linarith)
  have hfloor := natDiv_bounds (x * scaledSeries F (x * x / F) sinDivisors) F
  rw [Nat.cast_mul] at hfloor
  refine ⟨scaledSeries_error hF (sq_nonneg θ) hy1 hsq herr two_le_cosDivisors, ?_⟩
  rw [abs_le] at hprod ⊢
  constructor <;> linarith

end angle

/-- The fixed-point cosine and sine lie within 2^-58 of the exact ones (log entry 3). -/
theorem fixCosSin_error {θ : ℝ} {x : ℕ} (h0 : 0 ≤ θ) (h1 : θ ≤ 1) (hlo : x ≤ fixOne * θ)
    (hhi : fixOne * θ < x + 2) :
    |fixOne * Real.cos θ - (fixCosSin x).1| < 64 ∧ |fixOne * Real.sin θ - (fixCosSin x).2| < 64 := by
  obtain ⟨hcos, hsin⟩ := scaled_cosSin_error (by exact_mod_cast fixOne_pos) h0 h1 hlo hhi
  have hunit : ∀ {r t : ℝ}, |r - t| ≤ 1 / 2 ^ 64 → |fixOne * r - fixOne * t| ≤ 1 := fun {r t} h => by
    rw [← mul_sub, abs_mul, abs_of_pos fixOne_pos, fixOne_cast]
    linarith
  have htc := hunit (cos_realSeries h0 h1)
  have hts := hunit (sin_realSeries h0 h1)
  simp only [fixCosSin, fixSeries_eq_scaledSeries]
  rw [abs_le] at htc hts hcos hsin
  constructor <;> rw [abs_lt] <;> constructor <;> linarith

/-! ### The angles -/

/-- The exact angle `(π/2)·r/2^n`, which `fixAngle n r` approximates. -/
noncomputable def quarterAngle (n r : ℕ) : ℝ := Real.pi / 2 * (r / 2 ^ n)

section eighth
variable {n r : ℕ} (hr : 2 * r ≤ 2 ^ n)
include hr

theorem eighth_fraction : (r : ℝ) / 2 ^ n ≤ 1 / 2 := by
  rw [div_le_div_iff₀ (by positivity) (by norm_num)]
  have : (2 * r : ℝ) ≤ 2 ^ n := by exact_mod_cast hr
  linarith

theorem quarterAngle_le_one : quarterAngle n r ≤ 1 := by
  have hpi := Real.pi_lt_four
  have hfrac := eighth_fraction hr
  have hfrac0 : (0 : ℝ) ≤ r / 2 ^ n := by positivity
  unfold quarterAngle
  nlinarith

theorem fixAngle_bounds : fixAngle n r ≤ fixOne * quarterAngle n r ∧
    fixOne * quarterAngle n r < fixAngle n r + 2 := by
  have hfloor := natDiv_bounds (pi20 * r * fixOne) (2 * 10 ^ 20 * 2 ^ n)
  have hq : ((pi20 * r * fixOne : ℕ) : ℝ) / (2 * 10 ^ 20 * 2 ^ n : ℕ) =
      fixOne * (3.14159265358979323846 / 2 * (r / 2 ^ n)) := by
    rw [pi20]; push_cast; ring
  rw [hq] at hfloor
  change _ < (fixAngle n r : ℝ) ∧ (fixAngle n r : ℝ) ≤ _ at hfloor
  have hpi0 := Real.pi_gt_d20
  have hpi1 := Real.pi_lt_d20
  have hfrac := eighth_fraction hr
  have hfrac0 : (0 : ℝ) ≤ r / 2 ^ n := by positivity
  unfold quarterAngle
  rw [fixOne_cast] at *
  generalize (r : ℝ) / 2 ^ n = f at *
  obtain ⟨h1, h2⟩ := hfloor
  constructor <;> nlinarith

end eighth

end Sys2Proof.Machine
end

section
/-! PROOFS. The distance of the root table's entries from the rounding boundaries. -/

namespace Sys2Proof.Machine

/-! ### No entry lies near a rounding boundary -/

/-- All fixed-point values within 2^-58 of `c` round to the pattern of `c`, and that is no zero. -/
abbrev Pinned (c : ℕ) : Prop :=
  64 < c ∧ roundSigned false (c - 64) fixBits = roundSigned false c fixBits ∧
    roundSigned false (c + 64) fixBits = roundSigned false c fixBits ∧ magnitude (roundSigned false c fixBits) ≠ 0

theorem rounds_of_pinned {ρ : ℝ} {c : ℕ} (hc : Pinned c) (hρ : ρ ≤ 1) (herr : |fixOne * ρ - c| < 64) :
    Rounds ρ (roundSigned false c fixBits) := by
  obtain ⟨h64, hlo, hhi, hne⟩ := hc
  have hone : (fixOne : ℝ) = 2 ^ fixBits := fixOne_cast
  rw [hone] at herr
  have hpos : (0 : ℝ) < 2 ^ fixBits := by positivity
  obtain ⟨h1, h2⟩ := abs_lt.1 herr
  refine rounds_of_bracket (a := c - 64) (b := c + 64) (q := fixBits) (by omega) ?_ ?_ ?_ hlo hhi hne
  · rw [div_lt_iff₀ hpos, Nat.cast_sub h64.le]; push_cast; linarith
  · rw [lt_div_iff₀ hpos]; push_cast; linarith
  · have hle : (c : ℝ) < 2 ^ fixBits + 64 := by nlinarith
    have hle' : c < 2 ^ fixBits + 64 := by exact_mod_cast hle
    have : 2 * 2 ^ fixBits ≤ (2 ^ 128 - 2 ^ 103) * 2 ^ fixBits := Nat.mul_le_mul_right _ (by norm_num)
    have : 64 ≤ 2 ^ fixBits := by norm_num [fixBits]
    omega

/-- The finite part of R55: where the rounding boundaries lie with respect to the 1024 angles of the first eighth of the
turn is no general fact, and is computed entry by entry. -/
theorem eighth_pinned_table : ∀ i ∈ List.range' 1 1024,
    Pinned (fixCosSin (fixAngle 13 (4 * i))).1 ∧ Pinned (fixCosSin (fixAngle 13 (4 * i))).2 := by
  decide +kernel

theorem zero_cos_pinned : Pinned (fixCosSin (fixAngle 13 0)).1 ∧ (fixCosSin (fixAngle 13 0)).2 = 0 := by
  decide +kernel

end Sys2Proof.Machine
end

section
/-! PROOFS. The root table is correctly rounded (R55, R56). -/

namespace Sys2Proof.Machine

/-! ### Signed fixed-point values -/

theorem fneg_roundSigned (neg : Bool) (m q : ℕ) : fneg (roundSigned neg m q) = roundSigned (!neg) m q := by
  have hsign : (0x80000000#32 : Word) = 1#1 ++ 0#31 := by decide
  rw [roundSigned, fneg, hsign, BitVec.xor_append, BitVec.xor_zero, roundSigned]
  cases neg <;> rfl

theorem rne_neg {m : ℤ} (hm : m ≠ 0) (q : ℕ) : rne (-m) q = fneg (rne m q) := by
  rw [rne, rne, fneg_roundSigned, Int.natAbs_neg]
  congr 1
  rw [← decide_not, decide_eq_decide]
  omega

theorem rne_natCast (c q : ℕ) : rne (c : ℤ) q = roundSigned false c q := by
  rw [rne, decide_eq_false (by omega), Int.natAbs_natCast]

theorem rne_zero (q : ℕ) : rne 0 q = 0#32 := by simp [rne, roundSigned, roundMagnitude]

theorem value_zero : value 0#32 = 0 := by rw [value_eq_zero_iff]; decide

/-- The fixed-point value `m` rounds to the correct rounding of `ρ`, and is 0 where `ρ` is. -/
def Tracks (ρ : ℝ) (m : ℤ) : Prop := Rounds ρ (rne m fixBits) ∧ (ρ = 0 → m = 0)

theorem tracks_zero : Tracks 0 0 :=
  ⟨rounds_of_value_eq (by decide) (by rw [rne_zero, value_zero, Rat.cast_zero]) fun _ => rfl, fun _ => rfl⟩

theorem Tracks.neg {ρ : ℝ} {m : ℤ} (h : Tracks ρ m) : Tracks (-ρ) (-m) := by
  obtain ⟨hr, hz⟩ := h
  by_cases h0 : ρ = 0
  · rw [h0, hz h0, neg_zero, neg_zero]; exact tracks_zero
  · have hm : m ≠ 0 := fun hc => h0 (hr.2 (by rw [hc, rne_zero, value_zero]))
    exact ⟨by rw [rne_neg hm]; exact hr.neg h0, fun hc => absurd (neg_eq_zero.1 hc) h0⟩

theorem tracks_of_pinned {ρ : ℝ} {c : ℕ} (hc : Pinned c) (hρ : ρ ≤ 1) (herr : |fixOne * ρ - c| < 64) :
    Tracks ρ c := by
  refine ⟨by rw [rne_natCast]; exact rounds_of_pinned hc hρ herr, fun h0 => ?_⟩
  have h64 : (64 : ℝ) < c := by exact_mod_cast hc.1
  rw [h0, abs_lt] at herr
  linarith [herr.1]

/-! ### The turn, from its first eighth -/

theorem eighth_tracks {i : ℕ} (hi : i ≤ 1024) :
    Tracks (Real.cos (quarterAngle 13 (4 * i))) (fixCosSin (fixAngle 13 (4 * i))).1 ∧
    Tracks (Real.sin (quarterAngle 13 (4 * i))) (fixCosSin (fixAngle 13 (4 * i))).2 := by
  have hr : 2 * (4 * i) ≤ 2 ^ 13 := by omega
  have hθ0 : 0 ≤ quarterAngle 13 (4 * i) := by unfold quarterAngle; positivity
  obtain ⟨hlo, hhi⟩ := fixAngle_bounds hr
  obtain ⟨hcos, hsin⟩ := fixCosSin_error hθ0 (quarterAngle_le_one hr) hlo hhi
  rcases Nat.eq_zero_or_pos i with rfl | hpos
  · refine ⟨tracks_of_pinned zero_cos_pinned.1 (Real.cos_le_one _) hcos, ?_⟩
    rw [show (fixCosSin (fixAngle 13 (4 * 0))).2 = 0 from zero_cos_pinned.2]
    simpa [quarterAngle] using tracks_zero
  · obtain ⟨hpc, hps⟩ := eighth_pinned_table i (List.mem_range'_1.2 ⟨hpos, by omega⟩)
    exact ⟨tracks_of_pinned hpc (Real.cos_le_one _) hcos, tracks_of_pinned hps (Real.sin_le_one _) hsin⟩

theorem quarterAngle_complement {n r : ℕ} (hr : r ≤ 2 ^ n) :
    quarterAngle n (2 ^ n - r) = Real.pi / 2 - quarterAngle n r := by
  unfold quarterAngle
  rw [Nat.cast_sub hr]
  push_cast
  field_simp

theorem quarter_tracks {i : ℕ} (hi : i < 2048) :
    Tracks (Real.cos (quarterAngle 13 (4 * i))) (quarterCosSin 13 (4 * i)).1 ∧
    Tracks (Real.sin (quarterAngle 13 (4 * i))) (quarterCosSin 13 (4 * i)).2 := by
  unfold quarterCosSin
  split
  · exact eighth_tracks (by omega)
  · have hcomp := quarterAngle_complement (n := 13) (r := 4 * i) (by omega)
    obtain ⟨hcos, hsin⟩ := eighth_tracks (i := 2048 - i) (by omega)
    rw [show 4 * (2048 - i) = 2 ^ 13 - 4 * i by omega, hcomp] at hcos hsin
    rw [Real.cos_pi_div_two_sub] at hcos
    rw [Real.sin_pi_div_two_sub] at hsin
    exact ⟨hsin, hcos⟩

/-- A quarter turn swaps cosine and sine and negates one of them, in the table as on the circle. -/
theorem turn_tracks {j : ℕ} (hj : j < 2 ^ 13) :
    Tracks (Real.cos (2 * Real.pi * j / 2 ^ 13)) (turnCosSin 13 j).1 ∧
    Tracks (Real.sin (2 * Real.pi * j / 2 ^ 13)) (turnCosSin 13 j).2 := by
  obtain ⟨q, i, hi, rfl⟩ : ∃ q i, i < 2048 ∧ j = 2048 * q + i := ⟨j / 2048, j % 2048, by omega, by omega⟩
  have hq : q < 4 := by omega
  have hquot : 4 * (2048 * q + i) / 2 ^ 13 = q := by omega
  have hrest : 4 * (2048 * q + i) % 2 ^ 13 = 4 * i := by omega
  have hangle : 2 * Real.pi * (2048 * q + i : ℕ) / 2 ^ 13 = quarterAngle 13 (4 * i) + q * (Real.pi / 2) := by
    unfold quarterAngle; push_cast; ring
  obtain ⟨hcos, hsin⟩ := quarter_tracks hi
  rw [hangle, turnCosSin, hquot, hrest]
  interval_cases q
  · simpa using And.intro hcos hsin
  · rw [Nat.cast_one, one_mul, Real.cos_add_pi_div_two, Real.sin_add_pi_div_two]
    exact ⟨hsin.neg, hcos⟩
  · rw [show ((2 : ℕ) : ℝ) * (Real.pi / 2) = Real.pi by push_cast; ring, Real.cos_add_pi, Real.sin_add_pi]
    exact ⟨hcos.neg, hsin.neg⟩
  · rw [show quarterAngle 13 (4 * i) + ((3 : ℕ) : ℝ) * (Real.pi / 2) =
      quarterAngle 13 (4 * i) + Real.pi + Real.pi / 2 by push_cast; ring, Real.cos_add_pi_div_two,
      Real.sin_add_pi_div_two, Real.sin_add_pi, Real.cos_add_pi, neg_neg]
    exact ⟨hsin, hcos.neg⟩

/-! ### The table of each size is part of the largest one (R56) -/

theorem fixAngle_scale (n d r : ℕ) : fixAngle (n + d) (r * 2 ^ d) = fixAngle n r := by
  unfold fixAngle
  rw [show pi20 * (r * 2 ^ d) * fixOne = pi20 * r * fixOne * 2 ^ d by ring, Nat.pow_add, ← Nat.mul_assoc]
  exact Nat.mul_div_mul_right _ _ (by positivity)

theorem quarterCosSin_scale (n d r : ℕ) : quarterCosSin (n + d) (r * 2 ^ d) = quarterCosSin n r := by
  have hle : 2 * (r * 2 ^ d) ≤ 2 ^ (n + d) ↔ 2 * r ≤ 2 ^ n := by
    rw [Nat.pow_add, ← Nat.mul_assoc]
    exact Nat.mul_le_mul_right_iff (by positivity)
  have hsub : 2 ^ (n + d) - r * 2 ^ d = (2 ^ n - r) * 2 ^ d := by rw [Nat.pow_add, Nat.sub_mul]
  simp only [quarterCosSin, hle, hsub, fixAngle_scale]

theorem turnCosSin_scale (n d j : ℕ) : turnCosSin (n + d) (j * 2 ^ d) = turnCosSin n j := by
  have hquot : 4 * (j * 2 ^ d) / 2 ^ (n + d) = 4 * j / 2 ^ n := by
    rw [Nat.pow_add, ← Nat.mul_assoc]
    exact Nat.mul_div_mul_right _ _ (by positivity)
  have hmod : 4 * (j * 2 ^ d) % 2 ^ (n + d) = 4 * j % 2 ^ n * 2 ^ d := by
    rw [Nat.pow_add, ← Nat.mul_assoc, Nat.mul_mod_mul_right]
  simp only [turnCosSin, hquot, hmod, quarterCosSin_scale]

/-- Entry `j` of a table stands at `j·2^d` in the table of `2^d` times its size. -/
theorem romEntry_scale (n d j : ℕ) : romEntry (n + d) (j * 2 ^ d) = romEntry n j := by
  rw [romEntry, turnCosSin_scale, romEntry]

/-- The root of a size is an entry of that size's own table (R56). -/
theorem root_eq_romEntry {lmax L : ℕ} (h : L ≤ lmax) (k : ℕ) : root lmax L k = romEntry L k := by
  obtain ⟨d, rfl⟩ := Nat.exists_eq_add_of_le h
  rw [root, Nat.pow_add, Nat.mul_div_cancel_left _ (by positivity), romEntry_scale]

/-! ### Settled: R55 -/

/-- Every ROM entry is the correct rounding of its exact cosine and sine (R55), without underflow. -/
theorem romEntry_rounds {n j : ℕ} (hn : n ≤ 13) (hj : j < 2 ^ n) :
    Rounds (Real.cos (2 * Real.pi * j / 2 ^ n)) (romEntry n j).re ∧
    Rounds (Real.sin (2 * Real.pi * j / 2 ^ n)) (romEntry n j).im := by
  obtain ⟨d, hd⟩ := Nat.exists_eq_add_of_le hn
  have hjd : j * 2 ^ d < 2 ^ 13 := by
    rw [hd, Nat.pow_add]; exact Nat.mul_lt_mul_of_pos_right hj (by positivity)
  have hangle : 2 * Real.pi * (j * 2 ^ d : ℕ) / 2 ^ 13 = 2 * Real.pi * j / 2 ^ n := by
    rw [hd, pow_add]; push_cast; field_simp
  obtain ⟨hcos, hsin⟩ := turn_tracks hjd
  rw [hangle] at hcos hsin
  rw [← romEntry_scale n d j, ← hd]
  exact ⟨hcos.1, hsin.1⟩

/-- Settles O28: the fixed-point cosine and sine lie within 2^-58 of the exact ones, and no entry of the first eighth of
the turn lies that close to a rounding boundary; the rest of the turn follows by symmetry. -/
theorem rootRomIsCorrectlyRounded : Obligations.RootRomIsCorrectlyRounded := by
  intro n j _ hn hj
  obtain ⟨hcos, hsin⟩ := romEntry_rounds hn hj
  exact ⟨hcos.1, hsin.1⟩

end Sys2Proof.Machine
end

section
/-! PROOFS. The exact roots, the symmetry of the table (R57) and the normalisation constants (R60). -/

namespace Sys2Proof.Machine

/-! ### Exact values -/

theorem rounds_zero : Rounds 0 0x00000000#32 :=
  rounds_of_value_eq (by decide) (by rw [value_zero, Rat.cast_zero]) fun _ => rfl

/-- The powers of two that NORM_K holds for even sizes are values (R60). -/
theorem rounds_normK_even {k : ℕ} (hk : k < 7) : Rounds (1 / 2 ^ k) (normK (2 * k)) := by
  have hbits : ∀ k < 7, isFinite (normK (2 * k)) = true ∧ scaled (normK (2 * k)) * 2 ^ k = 2 ^ 149 := by decide
  obtain ⟨hf, hs⟩ := hbits k hk
  refine rounds_of_value_eq hf ?_ fun hc => absurd hc (by positivity)
  have hs' : (scaled (normK (2 * k)) : ℝ) * 2 ^ k = 2 ^ 149 := by exact_mod_cast hs
  rw [value]
  push_cast
  rw [div_eq_div_iff (by positivity) (by positivity), hs', one_mul]

theorem rounds_one : Rounds 1 0x3F800000#32 := by
  have hk : normK 0 = 0x3F800000#32 := by decide
  simpa [hk] using rounds_normK_even (k := 0) (by norm_num)

theorem rounds_neg_one : Rounds (-1) 0xBF800000#32 := rounds_one.neg one_ne_zero

/-! ### The root of one half -/

theorem half_sqrt_two_bracket : 3037000499 / 2 ^ 32 < √2 / 2 ∧ √2 / 2 < 3037000500 / 2 ^ 32 := by
  have hlo : (3037000499 / 2 ^ 31 : ℝ) < √2 := Real.lt_sqrt_of_sq_lt (by norm_num)
  have hhi : √2 < (3037000500 / 2 ^ 31 : ℝ) := (Real.sqrt_lt' (by norm_num)).2 (by norm_num)
  constructor <;> linarith

/-- The constants that NORM_K holds for odd sizes round 2^-k/√2 (R60). -/
theorem rounds_normK_odd {k : ℕ} (hk : k < 7) : Rounds (√2 / 2 / 2 ^ k) (normK (2 * k + 1)) := by
  have hbits : ∀ k < 7, roundSigned false 3037000499 (32 + k) = normK (2 * k + 1) ∧
      roundSigned false 3037000500 (32 + k) = normK (2 * k + 1) ∧ magnitude (normK (2 * k + 1)) ≠ 0 := by decide
  obtain ⟨hlo, hhi⟩ := half_sqrt_two_bracket
  obtain ⟨ha, hb, hne⟩ := hbits k hk
  have hscale : ∀ m : ℕ, (m : ℝ) / 2 ^ (32 + k) = m / 2 ^ 32 / 2 ^ k := fun m => by rw [pow_add, div_div]
  refine rounds_of_bracket (a := 3037000499) (b := 3037000500) (by norm_num) ?_ ?_ ?_ ha hb hne
  · rw [hscale]; push_cast; gcongr
  · rw [hscale]; push_cast; gcongr
  · exact lt_of_lt_of_le (by norm_num) (Nat.le_mul_of_pos_right _ (by positivity))

theorem rounds_half_sqrt_two : Rounds (√2 / 2) 0x3F3504F3#32 := by
  have hk : normK 1 = 0x3F3504F3#32 := by decide
  simpa [hk] using rounds_normK_odd (k := 0) (by norm_num)

/-! ### Settled: R60 -/

theorem two_rpow_even (k : ℕ) : (2 : ℝ) ^ (-((2 * k : ℕ) : ℝ) / 2) = 1 / 2 ^ k := by
  rw [show -((2 * k : ℕ) : ℝ) / 2 = -(k : ℝ) by push_cast; ring, Real.rpow_neg (by norm_num),
    Real.rpow_natCast, one_div]

theorem two_rpow_odd (k : ℕ) : (2 : ℝ) ^ (-((2 * k + 1 : ℕ) : ℝ) / 2) = √2 / 2 / 2 ^ k := by
  rw [show -((2 * k + 1 : ℕ) : ℝ) / 2 = 1 / 2 - 1 - k by push_cast; ring, Real.rpow_sub (by norm_num),
    Real.rpow_sub (by norm_num), Real.rpow_natCast, Real.rpow_one, Real.sqrt_eq_rpow]

/-- Settles O31: a power of two for even sizes; for odd ones 1/√2 lies between two quotients that round to its
pattern at every scale. -/
theorem normalisationConstants : Obligations.NormalisationConstants := by
  refine ⟨fun L h1 h13 => ?_, by decide⟩
  rcases Nat.even_or_odd' L with ⟨k, rfl | rfl⟩
  · rw [two_rpow_even]; exact (rounds_normK_even (by omega)).1
  · rw [two_rpow_odd]; exact (rounds_normK_odd (by omega)).1

/-! ### Settled: R57 -/

/-- A table entry is known by the correct rounding of its exact values. -/
theorem romEntry_eq {n j : ℕ} {re im : Word} (hn : n ≤ 13) (hj : j < 2 ^ n)
    (hre : Rounds (Real.cos (2 * Real.pi * j / 2 ^ n)) re) (him : Rounds (Real.sin (2 * Real.pi * j / 2 ^ n)) im) :
    romEntry n j = ⟨re, im⟩ := by
  obtain ⟨hcos, hsin⟩ := romEntry_rounds hn hj
  rw [← hcos.unique hre, ← hsin.unique him]

/-- The entry at `1/d` of the turn. -/
theorem romEntry_fraction {n d m : ℕ} {re im : Word} (hn : n ≤ 13) (hd : 1 < d) (h : 2 ^ n = d * m)
    (hre : Rounds (Real.cos (2 * Real.pi / d)) re) (him : Rounds (Real.sin (2 * Real.pi / d)) im) :
    romEntry n m = ⟨re, im⟩ := by
  have hm : 0 < m := Nat.pos_of_ne_zero fun hc => by simp [hc] at h
  have hangle : 2 * Real.pi * m / 2 ^ n = 2 * Real.pi / d := by
    rw [show (2 : ℝ) ^ n = d * m by exact_mod_cast h]
    exact mul_div_mul_right _ _ (by positivity)
  exact romEntry_eq hn (h ▸ lt_mul_left hm hd) (hangle ▸ hre) (hangle ▸ him)

theorem romEntry_first (n : ℕ) (hn : n ≤ 13) : romEntry n 0 = ⟨0x3F800000#32, 0x00000000#32⟩ :=
  romEntry_eq hn (by positivity) (by simpa using rounds_one) (by simpa using rounds_zero)

theorem romEntry_half {n m : ℕ} (hn : n ≤ 13) (h : 2 ^ n = 2 * m) :
    romEntry n m = ⟨0xBF800000#32, 0x00000000#32⟩ := by
  have hθ : 2 * Real.pi / (2 : ℕ) = Real.pi := by push_cast; ring
  exact romEntry_fraction hn (by norm_num) h (by rw [hθ, Real.cos_pi]; exact rounds_neg_one)
    (by rw [hθ, Real.sin_pi]; exact rounds_zero)

theorem romEntry_quarter {n m : ℕ} (hn : n ≤ 13) (h : 2 ^ n = 4 * m) :
    romEntry n m = ⟨0x00000000#32, 0x3F800000#32⟩ := by
  have hθ : 2 * Real.pi / (4 : ℕ) = Real.pi / 2 := by push_cast; ring
  exact romEntry_fraction hn (by norm_num) h (by rw [hθ, Real.cos_pi_div_two]; exact rounds_zero)
    (by rw [hθ, Real.sin_pi_div_two]; exact rounds_one)

theorem romEntry_eighth {n m : ℕ} (hn : n ≤ 13) (h : 2 ^ n = 8 * m) :
    romEntry n m = ⟨0x3F3504F3#32, 0x3F3504F3#32⟩ := by
  have hθ : 2 * Real.pi / (8 : ℕ) = Real.pi / 4 := by push_cast; ring
  exact romEntry_fraction hn (by norm_num) h (by rw [hθ, Real.cos_pi_div_four]; exact rounds_half_sqrt_two)
    (by rw [hθ, Real.sin_pi_div_four]; exact rounds_half_sqrt_two)

/-- The sine vanishes at the ends and in the middle of the turn only. -/
theorem sin_turn_ne_zero {n k : ℕ} (h0 : 0 < k) (hk : k < 2 ^ n) (hmid : k ≠ 2 ^ n / 2) :
    Real.sin (2 * Real.pi * k / 2 ^ n) ≠ 0 := by
  intro hsin
  obtain ⟨z, hz⟩ := Real.sin_eq_zero_iff.1 hsin
  have hreal : (z : ℝ) * 2 ^ n = 2 * k := by
    have := Real.pi_ne_zero
    field_simp at hz
    linarith
  have hint : z * 2 ^ n = 2 * (k : ℤ) := by exact_mod_cast hreal
  have hk' : (k : ℤ) < 2 ^ n := by exact_mod_cast hk
  have hz0 : 0 < z := by nlinarith
  have hz2 : z < 2 := by nlinarith
  obtain rfl : z = 1 := by omega
  have hnat : 2 ^ n = 2 * k := by exact_mod_cast (one_mul ((2 : ℤ) ^ n)).symm.trans hint
  omega

/-- The table is symmetric about the real axis, the middle of the turn excepted: there -0 is stored as +0 (R57). -/
theorem romEntry_conjugate {n k : ℕ} (hn : n ≤ 13) (h0 : 0 < k) (hk : k < 2 ^ n) (hmid : k ≠ 2 ^ n / 2) :
    romEntry n (2 ^ n - k) = ⟨(romEntry n k).re, fneg (romEntry n k).im⟩ := by
  obtain ⟨hcos, hsin⟩ := romEntry_rounds hn hk
  have hθ : 2 * Real.pi * (2 ^ n - k : ℕ) / 2 ^ n = 2 * Real.pi - 2 * Real.pi * k / 2 ^ n := by
    rw [Nat.cast_sub hk.le]; push_cast; field_simp
  refine romEntry_eq hn (by omega) ?_ ?_
  · rw [hθ, Real.cos_two_pi_sub]; exact hcos
  · rw [hθ, Real.sin_two_pi_sub]; exact hsin.neg (sin_turn_ne_zero h0 hk hmid)

/-- Settles O30: each value and the symmetry follow from the correct rounding of the exact root, which determines the
pattern. -/
theorem rootSymmetries : Obligations.RootSymmetries := by
  intro lmax L h1 hL hmax
  have hn : L ≤ 13 := hL.trans hmax
  have hdvd : ∀ e ≤ L, 2 ^ L = 2 ^ e * (2 ^ L / 2 ^ e) := fun e he =>
    (Nat.mul_div_cancel' (Nat.pow_dvd_pow 2 he)).symm
  simp only [root_eq_romEntry hL]
  refine ⟨romEntry_first L hn, fun h2 => romEntry_quarter hn (hdvd 2 h2), romEntry_half hn (hdvd 1 h1), fun h2 => ?_,
    fun h3 => romEntry_eighth hn (hdvd 3 h3), fun k => romEntry_conjugate hn⟩
  have hq : 2 ^ L = 4 * (2 ^ L / 4) := hdvd 2 h2
  have hpos : 0 < 2 ^ L := by positivity
  have hconj := romEntry_conjugate hn (k := 2 ^ L / 4) (by omega) (by omega) (by omega)
  rw [romEntry_quarter hn hq, show 2 ^ L - 2 ^ L / 4 = 3 * 2 ^ L / 4 by omega] at hconj
  exact hconj

end Sys2Proof.Machine
end

section
/-! PROOFS. The bit-reversal table (R58, R59). -/

namespace Sys2Proof.Machine

theorem revBits_revBits {L k : ℕ} (hk : k < 2 ^ L) : revBits L (revBits L k) = k := by
  apply Nat.eq_of_testBit_eq
  intro b
  rw [testBit_revBits, testBit_revBits]
  by_cases hb : b < L
  · rw [show L - 1 - (L - 1 - b) = b by omega]
    simp [hb, show L - 1 - b < L by omega]
  · have hhigh : k < 2 ^ b := lt_of_lt_of_le hk (Nat.pow_le_pow_right (by norm_num) (by omega))
    simp [hb, Nat.testBit_lt_two_pow hhigh]

/-- The sum of R58. -/
theorem revBits_eq_sum (L k : ℕ) : revBits L k = ∑ b ∈ Finset.range L, (k.testBit b).toNat * 2 ^ (L - 1 - b) := by
  induction L generalizing k with
  | zero => rfl
  | succ L ih =>
    have hlow : (k.testBit 0).toNat = k % 2 := by
      rw [Nat.testBit_zero]
      rcases Nat.mod_two_eq_zero_or_one k with h | h <;> simp [h]
    have hrest : ∀ b, (k.testBit (b + 1)).toNat * 2 ^ (L + 1 - 1 - (b + 1)) =
        ((k / 2).testBit b).toNat * 2 ^ (L - 1 - b) := fun b => by
      rw [Nat.testBit_succ, show L + 1 - 1 - (b + 1) = L - 1 - b by omega]
    rw [revBits, ih, Finset.sum_range_succ', hlow, Finset.sum_congr rfl fun b _ => hrest b]
    simp [Nat.add_comm]

theorem revBits_zero (L : ℕ) : revBits L 0 = 0 :=
  Nat.eq_of_testBit_eq fun b => by rw [testBit_revBits]; simp

theorem revBits_all_ones (L : ℕ) : revBits L (2 ^ L - 1) = 2 ^ L - 1 := by
  apply Nat.eq_of_testBit_eq
  intro b
  rw [testBit_revBits, Nat.testBit_two_pow_sub_one, Nat.testBit_two_pow_sub_one]
  by_cases hb : b < L
  · simp [hb, show L - 1 - b < L by omega]
  · simp [hb]

theorem revBits_bijOn (L : ℕ) : Set.BijOn (revBits L) (Set.Iio (2 ^ L)) (Set.Iio (2 ^ L)) :=
  Set.InvOn.bijOn (f' := revBits L) ⟨fun _ => revBits_revBits, fun _ => revBits_revBits⟩
    (fun k _ => revBits_lt L k) (fun k _ => revBits_lt L k)

/-- Settles O27, from the bits of a reversed index. -/
theorem bitReversalTable : Obligations.BitReversalTable := by
  intro L
  refine ⟨fun k hk => ⟨revBits_lt L k, revBits_revBits hk, fun b hb => ?_, revBits_eq_sum L k⟩, revBits_bijOn L,
    revBits_zero L, revBits_all_ones L, by decide, by decide⟩
  rw [testBit_revBits, show L - 1 - (L - 1 - b) = b by omega]
  simp [show L - 1 - b < L by omega]

end Sys2Proof.Machine
end

section
/-! PROOFS. The registers (R62-R64, R68-R70) and the entries beyond the buffer (R54). -/

namespace Sys2Proof.Machine

/-! ### Register accesses -/

/-- A 4-byte read of a register returns its word, idle or busy. -/
theorem transact_register_read (off : BitVec 18) (s : State) (h : off.toNat ≤ 0x20) (h4 : off.toNat % 4 = 0) :
    transact (readAt off) s = .next { s with rdata := some (readTarget s (target off)) } := by
  rw [transact_of_passed (firstError_register_read off s h h4) (by simp [readAt, Txn.isWrite])]
  rfl

theorem transact_writeAt_of_firstError {off : BitVec 18} {w : Word} {s : State} {e : ErrCode}
    (h : firstError (writeAt off w) s = some e) : transact (writeAt off w) s = .next (raise e (writeAt off w) s) :=
  transact_of_firstError h

theorem transact_writeAt_of_passed {off : BitVec 18} {w : Word} {s : State} (h : firstError (writeAt off w) s = none)
    (hc : off ≠ cmdOffset) : transact (writeAt off w) s = .next (writeTarget w s (target off)) :=
  transact_of_passed h fun hw => hc hw.2

/-- The checks of R402 on a 4-byte write to SIZE. -/
theorem firstError_size_write (w : Word) (s : State) : firstError (writeAt 0x00C#18 w) s =
    if s.busy then some .busy else if w.toNat < 1 ∨ s.lmax.toNat < w.toNat then some .invalidSize else none := by
  rw [firstError_eq_ruleError]
  simp [ruleError, writeAt, Txn.isWrite, Txn.wdata]

theorem firstError_ctrl_write (w : Word) (s : State) : firstError (writeAt 0x008#18 w) s = none := by
  rw [firstError_eq_ruleError]
  simp [ruleError, writeAt]

theorem firstError_readOnly_write {off : BitVec 18} (h : off ∈ [0x000#18, 0x004#18, 0x01C#18, 0x020#18]) (w : Word)
    (s : State) : firstError (writeAt off w) s = some .busAccess := by
  rw [firstError_eq_ruleError]
  simp only [List.mem_cons, List.not_mem_nil, or_false] at h
  rcases h with rfl | rfl | rfl | rfl <;> simp [ruleError, writeAt, Txn.isWrite]

theorem ctrlWord_fields (s : State) : s.ctrlWord.getLsbD 0 = s.doneIe ∧ s.ctrlWord.getLsbD 1 = s.errIe ∧
    s.ctrlWord.extractLsb' 2 30 = 0#30 := by
  unfold State.ctrlWord
  generalize s.doneIe = a
  generalize s.errIe = b
  revert a b
  decide

/-- A register that holds a 4-bit field reads as the field, zero-extended (R63, R64). -/
theorem zero_append_field (l : BitVec 4) : (0#28 ++ l : Word) = l.setWidth 32 := by revert l; decide

theorem capsWord_eq (s : State) : s.capsWord = s.lmax.setWidth 32 := zero_append_field s.lmax

theorem sizeWord_eq (s : State) : s.sizeWord = s.sizeL.setWidth 32 := zero_append_field s.sizeL

/-! ### Settled: R70, R64, R62, R63, R68, R69 -/

/-- Settles O43: no check applies to CTRL, idle or busy. -/
theorem controlRegister : Obligations.ControlRegister := by
  exact ⟨fun s w => ⟨⟨s.ctrlWord, transact_register_read 0x008#18 s (by decide) (by decide), ctrlWord_fields s⟩,
    transact_writeAt_of_passed (firstError_ctrl_write w s) (by decide)⟩, rfl, rfl⟩

/-- Settles O44, by the checks of a SIZE write. -/
theorem sizeRegister : Obligations.SizeRegister := by
  refine ⟨fun s w hmax => ⟨?_, fun hb => ?_, fun hb hw => ?_, fun hb h1 h2 => ?_⟩, rfl⟩
  · rw [← sizeWord_eq]; exact transact_register_read 0x00C#18 s (by decide) (by decide)
  · exact transact_writeAt_of_firstError (by rw [firstError_size_write, hb]; rfl)
  · exact transact_writeAt_of_firstError (by rw [firstError_size_write, hb, if_neg (by decide), if_pos hw])
  · refine ⟨w.extractLsb' 0 4, ?_, transact_writeAt_of_passed ?_ (by decide)⟩
    · rw [BitVec.extractLsb'_toNat, Nat.shiftRight_zero, Nat.mod_eq_of_lt (by omega)]
    · rw [firstError_size_write, hb, if_neg (by decide), if_neg (by omega)]

/-- Settles O46: no check applies to a register read, and item 4 of R402 refuses every write to a read-only register. -/
theorem readOnlyRegisters : Obligations.ReadOnlyRegisters := by
  refine fun s w => ⟨?_, ?_, ?_, ?_, fun off hoff => ?_⟩
  · exact transact_register_read 0x000#18 s (by decide) (by decide)
  · rw [← capsWord_eq]; exact transact_register_read 0x004#18 s (by decide) (by decide)
  · exact transact_register_read 0x01C#18 s (by decide) (by decide)
  · exact transact_register_read 0x020#18 s (by decide) (by decide)
  · exact transact_writeAt_of_firstError (firstError_readOnly_write hoff w s)

/-! ### Entries beyond the buffer -/

/-- A word stored in an entry leaves every other entry. -/
theorem entry_storeWord_ne (s : State) {k k' : ℕ} (p : Part) (w : Word) (h : k' ≠ k) :
    (s.storeWord (partOffset k' p) w).entry k = s.entry k := by
  refine entry_congr fun i hi => readByte_storeWord_outside s _ _ w ?_
  cases p <;> simp only [partOffset, entryOffset] <;> omega

theorem entry_access_beyond {t : Txn} {s : State} (hn : firstError t s = none) {k : ℕ} (hk : s.size ≤ k) :
    (access t s).entry k = s.entry k := by
  obtain ⟨-, -, -, -, -, hrange, -⟩ := firstError_none hn
  unfold access
  split
  · rfl
  · rename_i w _
    cases ht : target t.offset with
    | data k' p =>
      simp only [outOfRange, ht, decide_eq_false_iff_not, not_le] at hrange
      exact entry_storeWord_ne s p w (by omega)
    | _ => exact congrFun (entry_of_data_eq (by simp [writeTarget]) (by simp [writeTarget])) k

theorem entry_transact_beyond {t : Txn} {s u : State} (h : transact t s = .next u) {k : ℕ} (hk : s.size ≤ k) :
    u.entry k = s.entry k := by
  rcases transact_by_checks t s with ⟨e, -, hx⟩ | ⟨w, i, -, -, -, -, -, hx⟩ | ⟨hn, -, hx⟩ <;>
    obtain rfl := Host.Outcome.next.inj (hx.symm.trans h)
  · exact congrFun (entry_of_data_eq (by simp) (by simp)) k
  · exact congrFun (entry_of_data_eq (by simp) (by simp)) k
  · exact entry_access_beyond hn hk

theorem entry_engineStep_beyond {s u : State} (h : engineStep s = .next u) {k : ℕ} (hk : s.size ≤ k) :
    u.entry k = s.entry k := by
  rcases engineStep_cases h with ⟨-, rfl⟩ | ⟨-, p, -, rfl⟩
  · rfl
  · rw [entry_of_data_eq (countPass_data (runPass p s)) (countPass_resets (runPass p s))]
    exact entry_storeBuffer_beyond s _ k hk

theorem entry_begin (s : State) (rest : List Event) : (s.begin rest).entry = s.entry := entry_of_data_eq rfl rfl

/-- No step but reset changes an entry beyond the buffer (R54). -/
theorem entry_step_beyond {s u : State} (h : step s = .next u) (hr : s.inputs.head? ≠ some .reset) {k : ℕ}
    (hk : s.size ≤ k) : u.entry k = s.entry k := by
  rcases step_cases s with ⟨t, rest, -, hx⟩ | ⟨rest, -, hx⟩ | ⟨rest, hi, -⟩
  · rw [← entry_begin s rest]; exact entry_transact_beyond (hx.symm.trans h) hk
  · rw [← entry_begin s rest]; exact entry_engineStep_beyond (hx.symm.trans h) hk
  · rw [hi] at hr; exact absurd rfl hr

/-- Every transaction to an entry beyond the buffer is refused (R54, R107). -/
theorem transact_beyond_refused {t : Txn} {s : State} (h1 : 0x10000 ≤ t.offset.toNat) (h2 : t.offset.toNat < 0x20000)
    (hk : s.size ≤ (t.offset.toNat - 0x10000) / 8) : ∃ e, transact t s = .next (refuse e t s) := by
  rcases hf : firstError t s with _ | e
  · obtain ⟨-, -, -, -, -, hrange, -⟩ := firstError_none hf
    have ht : target t.offset = .data ((t.offset.toNat - 0x10000) / 8) (partOf t.offset) := by
      rcases target_cases t.offset with ⟨h, -⟩ | ⟨-, -, ht⟩ | ⟨h, -, -⟩ | ⟨h, -⟩
      · omega
      · exact ht
      · omega
      · omega
    simp only [outOfRange, ht, decide_eq_false_iff_not] at hrange
    exact absurd hk hrange
  · exact ⟨e, transact_of_firstError hf⟩

/-- Settles O49: a transaction stores below N only, a pass stores and reads the buffer only, and the range check refuses
every transaction to an entry from N on. -/
theorem entriesBeyondTheBufferAreUntouched : Obligations.EntriesBeyondTheBufferAreUntouched :=
  ⟨fun _ _ _ h hr hk => entry_step_beyond h hr hk, fun _ _ _ _ _ _ hi hp h _ hk => applyPass_congr hi hp h hk,
    fun _ _ h1 h2 hk => transact_beyond_refused h1 h2 hk⟩

end Sys2Proof.Machine
end

section
/-! PROOFS. The bus windows: misaligned and narrow transactions (R105, R106), DATA (R108, R109), REV (R110) and ROOT
(R111). -/

namespace Sys2Proof.Machine

/-! ### Misaligned and narrow transactions -/

theorem misaligned_eq_false {t : Txn} (h : t.offset.toNat % 4 = 0) : t.misaligned = false :=
  Bool.eq_false_iff.2 fun hm => (misaligned_iff t).1 hm h

theorem firstError_misaligned_or_narrow {t : Txn} (h : t.offset.toNat % 4 ≠ 0 ∨ t.size ≠ .four) (s : State) :
    firstError t s = some .busAccess := by
  unfold firstError
  rcases h with h | h
  · rw [if_pos ((misaligned_iff t).2 h), ite_self]
  · rw [if_pos h]

/-- Settles O35: the first two checks of R402 look at the transaction alone. -/
theorem misalignedOrNarrowIsRefused : Obligations.MisalignedOrNarrowIsRefused :=
  fun off z w s h => ⟨transact_of_firstError (firstError_misaligned_or_narrow (t := ⟨off, z, .write w⟩) h s),
    transact_of_firstError (firstError_misaligned_or_narrow (t := ⟨off, z, .read⟩) h s)⟩

/-! ### Reads -/

/-- A refused 4-byte read returns 0 and raises its error (R401). -/
theorem transact_readAt_of_firstError {off : BitVec 18} {s : State} {e : ErrCode}
    (h : firstError (readAt off) s = some e) :
    transact (readAt off) s = .next { raise e (readAt off) s with rdata := some 0x00000000#32 } :=
  transact_of_firstError h

/-- An accepted 4-byte read returns the word of its target and changes no state. -/
theorem transact_readAt_of_passed {off : BitVec 18} {s : State} (h : firstError (readAt off) s = none) :
    transact (readAt off) s = .next { s with rdata := some (readTarget s (target off)) } :=
  transact_of_passed h fun hw => Bool.noConfusion hw.1

/-! ### The DATA window -/

/-- While idle, no check refuses a transaction to an entry of the buffer. -/
theorem firstError_data {off : BitVec 18} {k : ℕ} {p : Part} {s : State} (op : BusOp) (hb : s.busy = false)
    (hs : k < s.size) (hk : k < 8192) (h : off.toNat = partOffset k p) : firstError ⟨off, .four, op⟩ s = none := by
  have ht : target off = .data k p := target_data hk h
  have hm : Txn.misaligned ⟨off, .four, op⟩ = false := by simp [Txn.misaligned, aligned_data h]
  simp [firstError, hm, ht, hb, Target.readOnly, outOfRange, valueError, hs]

theorem readWord_partOffset (s : State) (k : ℕ) (p : Part) : s.readWord (partOffset k p) = entryPart (s.entry k) p := by
  cases p <;> rfl

theorem transact_data_read {off : BitVec 18} {k : ℕ} {p : Part} {s : State} (hb : s.busy = false) (hs : k < s.size)
    (hk : k < 8192) (h : off.toNat = partOffset k p) :
    transact (readAt off) s = .next { s with rdata := some (entryPart (s.entry k) p) } := by
  rw [transact_readAt_of_passed (firstError_data .read hb hs hk h), target_data hk h, ← readWord_partOffset]
  rfl

theorem transact_data_write {off : BitVec 18} {k : ℕ} {p : Part} {s : State} (w : Word) (hb : s.busy = false)
    (hs : k < s.size) (hk : k < 8192) (h : off.toNat = partOffset k p) :
    transact (writeAt off w) s = .next (s.storeWord off.toNat w) := by
  have ht : target off = .data k p := target_data hk h
  have hc : off ≠ cmdOffset := fun hc => by rw [hc, target_cmdOffset] at ht; cases ht
  rw [transact_writeAt_of_passed (firstError_data (.write w) hb hs hk h) hc, ht, h]
  rfl

/-- A stored word leaves every word that it does not overlap. -/
theorem readWord_storeWord_disjoint (s : State) {a b : ℕ} (w : Word) (h : b + 4 ≤ a ∨ a + 4 ≤ b) :
    (s.storeWord a w).readWord b = s.readWord b :=
  readWord_congr fun i hi => readByte_storeWord_outside s a (b + i) w (by omega)

theorem entry_storeWord_re (s : State) (k : ℕ) (w : Word) :
    (s.storeWord (partOffset k .re) w).entry k = ⟨w, (s.entry k).im⟩ := by
  simp only [State.entry, partOffset, readWord_storeWord, readWord_storeWord_disjoint s w (.inr le_rfl)]

theorem entry_storeWord_im (s : State) (k : ℕ) (w : Word) :
    (s.storeWord (partOffset k .im) w).entry k = ⟨(s.entry k).re, w⟩ := by
  simp only [State.entry, partOffset, readWord_storeWord, readWord_storeWord_disjoint s w (.inl le_rfl)]

/-- Settles O36: no check applies, and the offset names the entry's part. -/
theorem dataReadReturnsTheStoredBits : Obligations.DataReadReturnsTheStoredBits :=
  fun _ _ _ hb hs hk => ⟨fun h => transact_data_read (p := .re) hb hs hk h,
    fun h => transact_data_read (p := .im) hb hs hk h⟩

/-- Settles O37: the word is stored at the transaction's own offset, which is that of the entry's part. -/
theorem dataWriteStoresItsBits : Obligations.DataWriteStoresItsBits := by
  intro k off w s hb hs hk hoff
  refine ⟨s.storeWord off.toNat w, ?_, ?_, fun a ha => readByte_storeWord_outside s off.toNat a w ha, rfl⟩
  · rcases hoff with h | h
    · exact transact_data_write (p := .re) w hb hs hk h
    · exact transact_data_write (p := .im) w hb hs hk h
  · rcases hoff with h | h
    · rw [if_pos h, h]; exact entry_storeWord_re s k w
    · rw [if_neg (by omega), h]; exact entry_storeWord_im s k w

/-! ### The table windows REV and ROOT -/

theorem target_rev {off : BitVec 18} (h : 0x30000 ≤ off.toNat) : target off = .rev ((off.toNat - 0x30000) / 4) := by
  rcases target_cases off with ⟨h', -⟩ | ⟨-, h', -⟩ | ⟨-, h', -⟩ | ⟨-, ht⟩
  · omega
  · omega
  · omega
  · exact ht

theorem target_root {off : BitVec 18} (h1 : 0x20000 ≤ off.toNat) (h2 : off.toNat < 0x30000) :
    target off = .root ((off.toNat - 0x20000) / 8) (partOf off) := by
  rcases target_cases off with ⟨h', -⟩ | ⟨-, h', -⟩ | ⟨-, -, ht⟩ | ⟨h', -⟩
  · omega
  · omega
  · exact ht
  · omega

/-- Item 4 of R402 comes before the check of BUSY and of the entry. -/
theorem transact_table_write {off : BitVec 18} (h4 : off.toNat % 4 = 0) (h : 0x20000 ≤ off.toNat) (w : Word)
    (s : State) : transact (writeAt off w) s = .next (raise .busAccess (writeAt off w) s) := by
  refine transact_writeAt_of_firstError ?_
  rw [firstError_eq_ruleError]
  simp [ruleError, writeAt, Txn.isWrite, h4, h]

theorem entryPart_partOf {off : BitVec 18} (h4 : off.toNat % 4 = 0) (c : Cplx) :
    entryPart c (partOf off) = if off.toNat % 8 = 0 then c.re else c.im := by
  split
  · rw [partOf_of_mod.1 ‹_›]; rfl
  · rw [partOf_of_mod.2 (by omega)]; rfl

/-- On a 4-byte read of a table window only the range check is left, idle or busy. -/
theorem firstError_table_read {off : BitVec 18} (h4 : off.toNat % 4 = 0) {k : ℕ}
    (ht : target off = .rev k ∨ ∃ p, target off = .root k p) (s : State) :
    firstError (readAt off) s = if s.size ≤ k then some .sizeMismatch else none := by
  have hm : Txn.misaligned ⟨off, .four, .read⟩ = false := misaligned_eq_false h4
  rcases ht with ht | ⟨p, ht⟩ <;>
    simp [firstError, readAt, Txn.isWrite, busyGuarded, outOfRange, valueError, hm, ht]

/-- Settles O38, by the checks of a table window. -/
theorem revWindow : Obligations.RevWindow := by
  intro off w s h4 h
  have ht : target off = .rev ((off.toNat - 0x30000) / 4) := target_rev h
  have hf := firstError_table_read h4 (.inl ht) s
  refine ⟨transact_table_write h4 (by omega) w s, fun hk => ?_, fun hk => ?_⟩
  · exact transact_readAt_of_firstError (hf.trans (if_pos hk))
  · rw [transact_readAt_of_passed (hf.trans (if_neg (not_le_of_gt hk))), ht]
    rfl

/-- Settles O39, by the checks of a table window. -/
theorem rootWindow : Obligations.RootWindow := by
  intro off w s h4 h1 h2 c
  have ht : target off = .root ((off.toNat - 0x20000) / 8) (partOf off) := target_root h1 h2
  have hf := firstError_table_read h4 (.inr ⟨_, ht⟩) s
  refine ⟨transact_table_write h4 h1 w s, fun hk => ?_, fun hk => ?_⟩
  · exact transact_readAt_of_firstError (hf.trans (if_pos hk))
  · rw [transact_readAt_of_passed (hf.trans (if_neg (not_le_of_gt hk))), ht, ← entryPart_partOf h4]
    rfl

end Sys2Proof.Machine
end

section
/-! PROOFS. Correct rounding on the rationals, and addition, multiplication, subtraction and negation of any two
patterns (R202-R206). -/

namespace Sys2Proof.Machine

/-! ### Rounding an exact quotient (R202) -/

/-- The distance of a value from an exact quotient, in integers. -/
theorem abs_value_sub_quotient (z : Word) (n : ℤ) (q : ℕ) :
    |value z - n / 2 ^ q| = ((|scaled z * 2 ^ q - n * 2 ^ 149| : ℤ) : ℚ) / 2 ^ (149 + q) := by
  have h : value z - n / 2 ^ q = ((scaled z * 2 ^ q - n * 2 ^ 149 : ℤ) : ℚ) / 2 ^ (149 + q) := by
    rw [value, div_sub_div _ _ (by positivity) (by positivity), pow_add, mul_comm _ (n : ℚ)]
    norm_cast
  rw [h, abs_div, ← Int.cast_abs, abs_of_pos (a := (2 : ℚ) ^ (149 + q)) (by positivity)]

theorem abs_value_sub_le_iff (x y : Word) (n : ℤ) (q : ℕ) : |value x - n / 2 ^ q| ≤ |value y - n / 2 ^ q| ↔
    |scaled x * 2 ^ q - n * 2 ^ 149| ≤ |scaled y * 2 ^ q - n * 2 ^ 149| := by
  rw [abs_value_sub_quotient, abs_value_sub_quotient, div_le_div_iff_of_pos_right (by positivity), Int.cast_le]

theorem abs_value_sub_eq_iff (x y : Word) (n : ℤ) (q : ℕ) : |value x - n / 2 ^ q| = |value y - n / 2 ^ q| ↔
    |scaled x * 2 ^ q - n * 2 ^ 149| = |scaled y * 2 ^ q - n * 2 ^ 149| := by
  rw [le_antisymm_iff, le_antisymm_iff, abs_value_sub_le_iff, abs_value_sub_le_iff]

theorem value_eq_iff (x y : Word) : value x = value y ↔ scaled x = scaled y := by
  rw [value, value, div_left_inj' (by positivity), Int.cast_inj]

theorem roundSigned_overflow {m q : ℕ} (neg : Bool) (ho : (2 ^ 128 - 2 ^ 103) * 2 ^ q ≤ m) :
    roundSigned neg m q = if neg then 0xFF800000#32 else 0x7F800000#32 := by
  have hm : m ≠ 0 := by
    have : 0 < (2 ^ 128 - 2 ^ 103) * 2 ^ q := by positivity
    omega
  rw [roundSigned, roundMagnitude, if_neg hm, if_pos ho]
  cases neg <;> rfl

theorem roundSigned_zero (neg : Bool) (q : ℕ) :
    roundSigned neg 0 q = if neg then 0x80000000#32 else 0x00000000#32 := by
  rw [roundSigned, roundMagnitude, if_pos rfl]
  cases neg <;> rfl

/-- The threshold of R202 (the tie above the largest finite value), in integers. -/
theorem quotient_overflow_iff (m q : ℕ) : (2 ^ 128 - 2 ^ 103 : ℚ) ≤ m / 2 ^ q ↔ (2 ^ 128 - 2 ^ 103) * 2 ^ q ≤ m := by
  rw [le_div_iff₀ (by positivity), ← Nat.cast_le (α := ℚ)]
  norm_num

theorem isRounded_roundSigned_false {m : ℕ} (hm : m ≠ 0) (q : ℕ) :
    IsRounded ((m : ℚ) / 2 ^ q) (roundSigned false m q) := by
  have hr : (0 : ℚ) ≤ m / 2 ^ q := by positivity
  simp only [IsRounded, abs_of_nonneg hr, quotient_overflow_iff, not_lt.2 hr, if_false, decide_false]
  split
  case isTrue ho => exact roundSigned_overflow false ho
  case isFalse ho =>
    obtain ⟨hs, hf, hmag, hfrac⟩ := magnitude_roundSigned false hm (not_le.1 ho)
    have hx : scaled (roundSigned false m q) = significand m q * 2 ^ spacing m q := by
      rw [scaled, hs, hmag]; push_cast; simp
    refine ⟨hf, fun y _ => ?_, fun y _ heq hne => ?_, fun _ => hs⟩
    · rw [← Int.cast_natCast, abs_value_sub_le_iff, hx]
      exact (significand_nearest hm y).1
    · rw [← Int.cast_natCast, abs_value_sub_eq_iff, hx] at heq
      rw [Ne, value_eq_iff, hx] at hne
      rw [hfrac]
      exact (significand_nearest hm y).2 heq hne

/-- Rounding to nearest is symmetric: the negation is the rounding of the opposite value. -/
theorem isRounded_fneg {r : ℚ} {x : Word} (h : IsRounded r x) (h0 : r ≠ 0) : IsRounded (-r) (fneg x) := by
  have hsign : -r < 0 ↔ ¬ r < 0 := by rw [neg_lt_zero, not_lt, h0.symm.le_iff_lt]
  have hdist : ∀ y, |value (fneg y) - -r| = |value y - r| := fun y => by rw [value_fneg, neg_sub_neg, abs_sub_comm]
  have hdist' : ∀ y, |value (fneg y) - r| = |value y - -r| := fun y => by rw [← hdist (fneg y), fneg_fneg]
  rw [IsRounded] at h ⊢
  rw [abs_neg]
  split at h
  case isTrue ho =>
    simp only [if_pos ho, h, hsign, ite_not]
    split <;> rfl
  case isFalse ho =>
    obtain ⟨hf, hnear, heven, hzero⟩ := h
    rw [if_neg ho]
    refine ⟨by rwa [isFinite_fneg], fun y hy => ?_, fun y hy heq hne => ?_, fun hz => ?_⟩
    · rw [hdist, ← hdist']
      exact hnear (fneg y) (by rwa [isFinite_fneg])
    · rw [fracOf_fneg]
      refine heven (fneg y) (by rwa [isFinite_fneg]) (by rw [hdist', heq, hdist]) fun hc => hne ?_
      rw [value_fneg, ← hc, value_fneg, neg_neg]
    · rw [value_fneg, neg_eq_zero] at hz
      simp only [signOf_fneg, hzero hz, hsign, decide_not]

/-- `rne` is RNE for every exact value of the form `n / 2^q` but zero (R202). -/
theorem isRounded_rne {n : ℤ} (hn : n ≠ 0) (q : ℕ) : IsRounded ((n : ℚ) / 2 ^ q) (rne n q) := by
  have hpos := isRounded_roundSigned_false (Int.natAbs_ne_zero.2 hn) q
  rcases Int.natAbs_eq n with h | h
  · rw [h, rne_natCast, Int.cast_natCast]
    exact hpos
  · rw [h, rne_neg (by omega), rne_natCast, Int.cast_neg, neg_div, Int.cast_natCast]
    exact isRounded_fneg hpos (by positivity)

/-! ### Classes of a pattern (R201) -/

theorem not_isNaN_of_isInf {x : Word} (h : isInf x = true) : isNaN x = false := by
  simp_all [isInf, isNaN]

theorem not_isNaN_of_isFinite {x : Word} (h : isFinite x = true) : isNaN x = false := by
  simp_all [isFinite, isNaN]

theorem not_isInf_of_isFinite {x : Word} (h : isFinite x = true) : isInf x = false := by
  simp_all [isFinite, isInf]

/-! ### The cases of addition (R203) -/

theorem fadd_of_isNaN {a b : Word} (h : isNaN a = true ∨ isNaN b = true) : fadd a b = canonicalNaN := by
  rw [fadd, if_pos (by simpa using h)]

theorem fadd_of_isInf {a b : Word} (ha : isInf a = true) (hb : isInf b = true) :
    fadd a b = if signOf a = signOf b then a else canonicalNaN := by
  simp [fadd, not_isNaN_of_isInf ha, not_isNaN_of_isInf hb, ha, hb]

theorem fadd_of_isInf_left {a b : Word} (ha : isInf a = true) (hb : isFinite b = true) : fadd a b = a := by
  simp [fadd, not_isNaN_of_isInf ha, not_isNaN_of_isFinite hb, ha, not_isInf_of_isFinite hb]

theorem fadd_of_isInf_right {a b : Word} (ha : isFinite a = true) (hb : isInf b = true) : fadd a b = b := by
  simp [fadd, not_isNaN_of_isFinite ha, not_isNaN_of_isInf hb, not_isInf_of_isFinite ha, hb]

theorem fadd_of_isFinite {a b : Word} (ha : isFinite a = true) (hb : isFinite b = true) :
    fadd a b = if scaled a + scaled b = 0 then
      (if a = 0x80000000#32 ∧ b = 0x80000000#32 then 0x80000000#32 else 0x00000000#32)
      else rne (scaled a + scaled b) 149 := by
  simp [fadd, not_isNaN_of_isFinite ha, not_isNaN_of_isFinite hb, not_isInf_of_isFinite ha, not_isInf_of_isFinite hb]

theorem value_add (a b : Word) : value a + value b = ((scaled a + scaled b : ℤ) : ℚ) / 2 ^ 149 := by
  rw [value, value, ← add_div, Int.cast_add]

theorem value_add_eq_zero_iff (a b : Word) : value a + value b = 0 ↔ scaled a + scaled b = 0 := by
  rw [value_add, div_eq_zero_iff, or_iff_left (by positivity), Int.cast_eq_zero]

/-- Settles O19, case by case of R203. -/
theorem additionFollowsTheRule : Obligations.AdditionFollowsTheRule := by
  intro a b
  refine ⟨fadd_of_isNaN, fadd_of_isInf, fadd_of_isInf_left, fadd_of_isInf_right,
    fun ha hb => ⟨fun h0 => ?_, fun h0 => ?_⟩⟩
  · rw [fadd_of_isFinite ha hb, if_pos ((value_add_eq_zero_iff a b).1 h0)]
  · rw [Ne, value_add_eq_zero_iff] at h0
    rw [fadd_of_isFinite ha hb, if_neg h0, value_add]
    exact isRounded_rne h0 149

/-! ### The cases of multiplication (R205) -/

theorem fmul_of_isNaN {a b : Word} (h : isNaN a = true ∨ isNaN b = true) : fmul a b = canonicalNaN := by
  rw [fmul, if_pos (by simpa using h)]

theorem fmul_of_isInf {a b : Word} (ha : isNaN a = false) (hb : isNaN b = false) (h : isInf a = true ∨ isInf b = true) :
    fmul a b = if isZero a = true ∨ isZero b = true then canonicalNaN
      else if signOf a = signOf b then 0x7F800000#32 else 0xFF800000#32 := by
  have hsign : (BitVec.ofBool (signOf a ^^ signOf b) ++ 0x7F800000#31 : Word) =
      if signOf a = signOf b then 0x7F800000#32 else 0xFF800000#32 := by
    cases signOf a <;> cases signOf b <;> rfl
  rw [fmul, if_neg (by simp [ha, hb]), if_pos (by simpa using h), hsign]
  simp only [Bool.or_eq_true]

theorem fmul_of_isFinite {a b : Word} (ha : isFinite a = true) (hb : isFinite b = true) :
    fmul a b = roundSigned (signOf a ^^ signOf b) (magnitude a * magnitude b) 298 := by
  simp [fmul, not_isNaN_of_isFinite ha, not_isNaN_of_isFinite hb, not_isInf_of_isFinite ha, not_isInf_of_isFinite hb]

theorem value_mul (a b : Word) : value a * value b = ((scaled a * scaled b : ℤ) : ℚ) / 2 ^ 298 := by
  rw [value, value, div_mul_div_comm, ← pow_add, Int.cast_mul]

/-- The product of two signed magnitudes, its sign the exclusive or of theirs. -/
theorem scaled_mul (a b : Word) : scaled a * scaled b =
    if signOf a ^^ signOf b then -((magnitude a * magnitude b : ℕ) : ℤ) else ((magnitude a * magnitude b : ℕ) : ℤ) := by
  unfold scaled
  cases signOf a <;> cases signOf b <;> simp

theorem roundSigned_eq_rne {m : ℕ} (hm : m ≠ 0) (neg : Bool) (q : ℕ) :
    roundSigned neg m q = rne (if neg then -(m : ℤ) else (m : ℤ)) q := by
  cases neg
  · exact (rne_natCast m q).symm
  · rw [if_pos rfl, rne_neg (Int.natCast_ne_zero.2 hm), rne_natCast, fneg_roundSigned]; rfl

/-- Settles O20, case by case of R205. -/
theorem multiplicationFollowsTheRule : Obligations.MultiplicationFollowsTheRule := by
  intro a b
  refine ⟨fmul_of_isNaN, fmul_of_isInf, fun ha hb => ?_⟩
  have hmag : value a * value b = 0 ↔ magnitude a * magnitude b = 0 := by
    rw [mul_eq_zero, mul_eq_zero, value_eq_zero_iff, value_eq_zero_iff]
  rw [fmul_of_isFinite ha hb]
  refine ⟨fun h0 => ?_, fun h0 => ?_⟩
  · rw [hmag.1 h0, roundSigned_zero]
    cases signOf a <;> cases signOf b <;> rfl
  · have hm : magnitude a * magnitude b ≠ 0 := fun hc => h0 (hmag.2 hc)
    rw [roundSigned_eq_rne hm, ← scaled_mul, value_mul]
    exact isRounded_rne (fun hc => h0 (by rw [value_mul, hc, Int.cast_zero, zero_div])) 298

/-! ### Negation and subtraction (R204, R206) -/

/-- Settles O22: the mask has bit 31 alone. -/
theorem negationFlipsTheSignBit : Obligations.NegationFlipsTheSignBit := by
  intro x
  have hmask : ∀ j < 31, (0x80000000#32).getLsbD j = false := by decide
  refine ⟨rfl, signOf_fneg x, fun j hj => ?_⟩
  rw [fneg, BitVec.getLsbD_xor, hmask j hj, Bool.xor_false]

/-- `x - x` is an exact zero sum, and of `x` and its negation at most one is -0. -/
theorem fsub_self_of_isFinite {x : Word} (hx : isFinite x = true) : fsub x x = 0x00000000#32 := by
  have hne : ¬ (x = 0x80000000#32 ∧ fneg x = 0x80000000#32) := by
    rintro ⟨rfl, h⟩
    exact absurd h (by decide)
  have hzero : scaled x + scaled (fneg x) = 0 := by
    rw [← value_add_eq_zero_iff, value_fneg, add_neg_cancel]
  rw [fsub, fadd_of_isFinite hx (by rwa [isFinite_fneg]), if_pos hzero, if_neg hne]

/-- Settles O21: the listed infinities are opposite after the negation, the listed zeros an exact zero sum. -/
theorem subtractionFollowsTheRule : Obligations.SubtractionFollowsTheRule :=
  ⟨fun _ _ => rfl, fun _ => fsub_self_of_isFinite, by decide, by decide, by decide⟩

end Sys2Proof.Machine
end

section
/-! PROOFS. One turn of the engine (R352), and a command of one pass issued twice in a row (R252). -/

namespace Sys2Proof.Machine

/-! ### One turn of the engine -/

theorem entry_countPass (s : State) : (countPass s).entry = s.entry :=
  entry_of_data_eq (countPass_data s) (countPass_resets s)

theorem entry_runPass (p : Pass) (s : State) {k : ℕ} (hk : k < s.size) :
    (runPass p s).entry k = applyPass s.lmax.toNat s.sizeL.toNat p s.entry k :=
  entry_storeBuffer s _ k hk

/-- No byte outside the buffer changes in a turn (R54). -/
theorem readByte_countPass_runPass (p : Pass) (s : State) {a : ℕ} (ha : a < dataBase ∨ entryOffset s.size ≤ a) :
    (countPass (runPass p s)).readByte a = s.readByte a := by
  rw [readByte_of_data_eq (countPass_data _) (countPass_resets _)]
  exact readByte_storeBuffer_outside s _ a ha

/-- A turn changes no register but PASS, BUSY and DONE. -/
theorem countPass_runPass_frame (p : Pass) (s : State) :
    { countPass (runPass p s) with data := s.data, pass := s.pass, busy := s.busy, done := s.done } = s := by
  unfold countPass
  dsimp only
  split <;> rfl

theorem toNat_pass_succ {n : BitVec 5} (h : n.toNat < 31) : (n + 1#5).toNat = n.toNat + 1 :=
  BitVec.toNat_add_of_lt (by simpa using by omega)

/-- The turn that counts the last pass completes the command, and raises `irq` where DONE_IE asks for it (R353, R410). -/
theorem countPass_completion {s : State} (hb : s.busy = true) (h31 : s.pass.toNat < 31) :
    if s.pass.toNat + 1 = s.seq.length then
      (countPass s).busy = false ∧ (countPass s).done = true ∧ (s.doneIe = true → (countPass s).irq = true)
    else (countPass s).busy = true ∧ (countPass s).done = s.done := by
  rw [countPass_busy, countPass_done, toNat_pass_succ h31]
  split
  case isTrue hlast =>
    refine ⟨rfl, rfl, fun hie => ?_⟩
    simp [State.irq, toNat_pass_succ h31, hlast, hie]
  case isFalse => exact ⟨hb, rfl⟩

/-- Settles O8, kind by kind of the pass. -/
theorem engineStepRunsOnePass : Obligations.EngineStepRunsOnePass := by
  refine fun s => ⟨engineStep_idle, fun p hb hp h31 => ?_⟩
  have hentry : ∀ k, k < s.size →
      (countPass (runPass p s)).entry k = applyPass s.lmax.toNat s.sizeL.toNat p s.entry k := fun k hk => by
    rw [entry_countPass, entry_runPass p s hk]
  refine ⟨_, engineStep_busy hb hp, hentry, fun k hk => ?_, fun a => readByte_countPass_runPass p s, ?_,
    countPass_completion (s := runPass p s) hb h31, countPass_runPass_frame p s⟩
  · rw [hentry k hk]
    cases p <;> rfl
  · rw [countPass_pass]
    exact toNat_pass_succ h31

/-! ### A command of one pass, and two of them in a row -/

/-- A command of one pass, issued to an idle block and given its turn: the pass on the buffer, the entries beyond it kept,
and the block idle again (R350, R352, R54). -/
theorem run_onePass {s : State} {i : Instr} {p : Pass} {rest : List Event} (hb : s.busy = false)
    (hi : i.wellFormed s.sizeL.toNat = true) (hp : passes i s.sizeL.toNat = [p])
    (hin : s.inputs = .host (cmdWrite (encode i)) :: .engine :: rest) :
    ∃ u, Host.Core.run core 2 s = .next u ∧
      (∀ k, k < s.size → State.entry u k = applyPass s.lmax.toNat s.sizeL.toNat p s.entry k) ∧
      (∀ k, s.size ≤ k → State.entry u k = s.entry k) ∧ State.busy u = false ∧ State.done u = true ∧
      State.sizeL u = s.sizeL ∧ State.lmax u = s.lmax ∧ State.inputs u = rest := by
  have hrun := run_command (rest := rest) hb hi (by rw [hp]; exact hin)
  rw [hp] at hrun
  obtain ⟨u, hu, hbuf, hbeyond, hregs⟩ := hrun
  exact ⟨u, hu, hbuf,
    fun k hk => entry_congr fun j _ => hbeyond _ (.inr (by simp only [entryOffset]; omega)), hregs⟩

/-- A command of one pass, issued twice in a row to an idle block, restores every entry when its pass is its own inverse on
the buffer. -/
theorem run_onePass_twice {s : State} {i : Instr} {p : Pass} (hb : s.busy = false)
    (hi : i.wellFormed s.sizeL.toNat = true) (hp : passes i s.sizeL.toNat = [p])
    (hinv : ∀ k, k < s.size → applyPass s.lmax.toNat s.sizeL.toNat p
      (applyPass s.lmax.toNat s.sizeL.toNat p s.entry) k = s.entry k) :
    ∃ u, Host.Core.run core 4 { s with inputs := script (fun _ => 1) [i, i] } = .next u ∧
      State.busy u = false ∧ State.done u = true ∧ ∀ k, State.entry u k = s.entry k := by
  obtain ⟨t, ht, hbuf, hbeyond, htb, -, hL, hlmax, hin⟩ :=
    run_onePass (s := { s with inputs := script (fun _ => 1) [i, i] }) (rest := script (fun _ => 1) [i]) hb hi hp rfl
  have hsize : State.size t = s.size := congrArg (2 ^ ·.toNat) hL
  obtain ⟨u, hu, hbuf', hbeyond', hub, hud, -⟩ :=
    run_onePass (s := t) (rest := []) htb (by rw [hL]; exact hi) (by rw [hL]; exact hp) hin
  rw [hsize] at hbuf' hbeyond'
  refine ⟨u, (run_add 2 ht).trans hu, hub, hud, fun k => ?_⟩
  rcases lt_or_ge k s.size with hk | hk
  · calc State.entry u k = applyPass s.lmax.toNat s.sizeL.toNat p (State.entry t) k := by rw [hbuf' k hk, hL, hlmax]
      _ = applyPass s.lmax.toNat s.sizeL.toNat p (applyPass s.lmax.toNat s.sizeL.toNat p s.entry) k :=
        applyPass_congr hi (by rw [hp]; exact List.mem_singleton_self p) hbuf hk
      _ = s.entry k := hinv k hk
  · exact (hbeyond' k hk).trans (hbeyond k hk)

theorem revPass_revPass {L : ℕ} (D : ℕ → Cplx) {k : ℕ} (hk : k < 2 ^ L) : revPass L (revPass L D) k = D k :=
  congrArg D (revBits_revBits hk)

/-- Settles O14, from the self-inverse table of R59. -/
theorem bitrevTwiceRestores : Obligations.BitrevTwiceRestores :=
  ⟨fun s hb => run_onePass_twice (p := .rev) hb rfl rfl fun _ hk => revPass_revPass s.entry hk,
    fun _ D _ => ⟨rfl, fun hk => ⟨rfl, revPass_revPass D hk⟩⟩⟩

end Sys2Proof.Machine
end

section
/-! PROOFS. The one NaN that arithmetic returns (R207). -/

namespace Sys2Proof.Machine

/-- Every pattern is a NaN, an infinity or finite (R201). -/
theorem class_cases (x : Word) : isNaN x = true ∨ isInf x = true ∨ isFinite x = true := by
  simp only [isNaN, isInf, isFinite, Bool.and_eq_true, decide_eq_true_eq]
  tauto

/-- Rounding never gives a NaN (R202). -/
theorem isNaN_roundSigned (neg : Bool) (m q : ℕ) : isNaN (roundSigned neg m q) = false := by
  by_cases hm : m = 0
  · rw [hm, roundSigned_zero]
    cases neg <;> decide
  · rcases lt_or_ge m ((2 ^ 128 - 2 ^ 103) * 2 ^ q) with ho | ho
    · obtain ⟨-, hfinite, -⟩ := magnitude_roundSigned neg hm ho
      exact not_isNaN_of_isFinite hfinite
    · rw [roundSigned_overflow neg ho]
      cases neg <;> decide

theorem fadd_of_isNaN_fadd {a b : Word} (h : isNaN (fadd a b) = true) : fadd a b = canonicalNaN := by
  by_cases hnan : isNaN a = true ∨ isNaN b = true
  · exact fadd_of_isNaN hnan
  obtain ⟨hna, hnb⟩ := not_or.1 hnan
  rcases (class_cases a).resolve_left hna with ha | ha <;> rcases (class_cases b).resolve_left hnb with hb | hb
  case inl.inl =>
    rw [fadd_of_isInf ha hb] at h ⊢
    split at h
    case isTrue => exact absurd h hna
    case isFalse hs => exact if_neg hs
  case inl.inr => exact absurd (fadd_of_isInf_left ha hb ▸ h) hna
  case inr.inl => exact absurd (fadd_of_isInf_right ha hb ▸ h) hnb
  case inr.inr =>
    rw [fadd_of_isFinite ha hb] at h
    split at h
    case isTrue => exact absurd h (by split <;> decide)
    case isFalse => exact absurd h (by rw [rne, isNaN_roundSigned]; decide)

theorem fmul_of_isNaN_fmul {a b : Word} (h : isNaN (fmul a b) = true) : fmul a b = canonicalNaN := by
  by_cases hnan : isNaN a = true ∨ isNaN b = true
  · exact fmul_of_isNaN hnan
  obtain ⟨hna, hnb⟩ := not_or.1 hnan
  by_cases hinf : isInf a = true ∨ isInf b = true
  · rw [fmul_of_isInf (by simpa using hna) (by simpa using hnb) hinf] at h ⊢
    split at h
    case isTrue hz => exact if_pos hz
    case isFalse => exact absurd h (by split <;> decide)
  · obtain ⟨hia, hib⟩ := not_or.1 hinf
    have ha := ((class_cases a).resolve_left hna).resolve_left hia
    have hb := ((class_cases b).resolve_left hnb).resolve_left hib
    rw [fmul_of_isFinite ha hb, isNaN_roundSigned] at h
    cases h

theorem isNaN_fneg (x : Word) : isNaN (fneg x) = isNaN x := by
  simp only [isNaN, expOf_fneg, fracOf_fneg]

/-- Settles O23: rounding gives no NaN, so the cases of R203 and R205 leave the canonical one alone. -/
theorem arithmeticNaNIsCanonical : Obligations.ArithmeticNaNIsCanonical :=
  ⟨fun _ _ => fadd_of_isNaN_fadd, fun _ _ => fadd_of_isNaN_fadd, fun _ _ => fmul_of_isNaN_fmul,
    fun x => ⟨isNaN_fneg x, fracOf_fneg x⟩, fun _ _ _ => rfl⟩

end Sys2Proof.Machine
end

section
/-! PROOFS. The butterfly stage: its pairs (R280, R282) and its twiddles (R56, R281). -/

namespace Sys2Proof.Machine

/-! ### The pairs of a stage -/

/-- Entry `i` of block `blk` whose pair is number `k` of the block is the sum or the difference of that pair (R282). -/
theorem bfPass_of_pair {lmax L e i blk k : ℕ} (D : ℕ → Cplx) (h1 : 1 ≤ e) (hblk : i / 2 ^ e = blk)
    (hk : i % 2 ^ (e - 1) = k) :
    bfPass lmax L e D i =
      let u := blk * 2 ^ e + k
      let t := cmul (D (u + 2 ^ (e - 1))) (root lmax L (2 ^ L / 2 ^ e * k))
      if i % 2 ^ e < 2 ^ (e - 1) then cadd (D u) t else csub (D u) t := by
  simp only [bfPass, stageSize_eq, halfSize_eq h1, hblk, hk]

section
variable {L e blk k : ℕ} (h1 : 1 ≤ e) (hk : k < 2 ^ (e - 1))
include h1

/-- The pair number of an entry is its place in the block, taken modulo half a block. -/
theorem pair_number (r : ℕ) : (blk * 2 ^ e + r) % 2 ^ (e - 1) = r % 2 ^ (e - 1) := by
  rw [← Nat.two_pow_pred_mul_two h1, ← Nat.mul_assoc, Nat.mul_right_comm, Nat.mul_add_mod']

include hk

/-- A pair of a block lies in the buffer (R280). -/
theorem pair_lt_of_block (hblk : blk < 2 ^ L / 2 ^ e) : blk * 2 ^ e + k + 2 ^ (e - 1) < 2 ^ L := by
  have hend : (blk + 1) * 2 ^ e ≤ 2 ^ L := Nat.mul_le_of_le_div _ _ _ hblk
  rw [Nat.succ_mul] at hend
  have hs := Nat.two_pow_pred_mul_two h1
  omega

/-- The first entry of a pair takes the sum (R280). -/
theorem bfPass_first (lmax : ℕ) (D : ℕ → Cplx) :
    bfPass lmax L e D (blk * 2 ^ e + k) =
      cadd (D (blk * 2 ^ e + k)) (cmul (D (blk * 2 ^ e + k + 2 ^ (e - 1))) (root lmax L (2 ^ L / 2 ^ e * k))) := by
  have hks : k < 2 ^ e := by rw [← Nat.two_pow_pred_mul_two h1]; omega
  have hquot : (blk * 2 ^ e + k) / 2 ^ e = blk := Nat.div_eq_of_lt_le (by omega) (by rw [Nat.succ_mul]; omega)
  have hnum : (blk * 2 ^ e + k) % 2 ^ (e - 1) = k := by rw [pair_number h1, Nat.mod_eq_of_lt hk]
  rw [bfPass_of_pair D h1 hquot hnum, Nat.mul_add_mod', Nat.mod_eq_of_lt hks]
  exact if_pos hk

/-- The second entry of a pair takes the difference (R280). -/
theorem bfPass_second (lmax : ℕ) (D : ℕ → Cplx) :
    bfPass lmax L e D (blk * 2 ^ e + k + 2 ^ (e - 1)) =
      csub (D (blk * 2 ^ e + k)) (cmul (D (blk * 2 ^ e + k + 2 ^ (e - 1))) (root lmax L (2 ^ L / 2 ^ e * k))) := by
  have hks : k + 2 ^ (e - 1) < 2 ^ e := by rw [← Nat.two_pow_pred_mul_two h1]; omega
  have hquot : (blk * 2 ^ e + k + 2 ^ (e - 1)) / 2 ^ e = blk :=
    Nat.div_eq_of_lt_le (by omega) (by rw [Nat.succ_mul]; omega)
  have hnum : (blk * 2 ^ e + k + 2 ^ (e - 1)) % 2 ^ (e - 1) = k := by
    rw [Nat.add_mod_right, pair_number h1, Nat.mod_eq_of_lt hk]
  have hplace : (blk * 2 ^ e + k + 2 ^ (e - 1)) % 2 ^ e = k + 2 ^ (e - 1) := by
    rw [Nat.add_assoc, Nat.mul_add_mod', Nat.mod_eq_of_lt hks]
  rw [bfPass_of_pair D h1 hquot hnum, hplace]
  exact if_neg (Nat.not_lt.2 (Nat.le_add_left _ _))

end

/-- Every entry of the buffer is the first or the second of a pair (R280). -/
theorem exists_pair {L e i : ℕ} (h1 : 1 ≤ e) (h2 : e ≤ L) (hi : i < 2 ^ L) :
    ∃ blk k, blk < 2 ^ L / 2 ^ e ∧ k < 2 ^ (e - 1) ∧ (i = blk * 2 ^ e + k ∨ i = blk * 2 ^ e + k + 2 ^ (e - 1)) := by
  have hblk : i / 2 ^ e < 2 ^ L / 2 ^ e := Nat.div_lt_div_of_lt_of_dvd (Nat.pow_dvd_pow 2 h2) hi
  have hplace : i % 2 ^ e = i % 2 ^ (e - 1) + 2 ^ (e - 1) * (i / 2 ^ (e - 1) % 2) := by
    rw [← Nat.two_pow_pred_mul_two h1, Nat.mod_mul]
  have hdiv := Nat.div_add_mod' i (2 ^ e)
  refine ⟨i / 2 ^ e, i % 2 ^ (e - 1), hblk, Nat.mod_lt _ (by positivity), ?_⟩
  rcases Nat.mod_two_eq_zero_or_one (i / 2 ^ (e - 1)) with hhalf | hhalf
  · rw [hhalf] at hplace; left; omega
  · rw [hhalf] at hplace; right; omega

/-- Settles O16: quotient and remainder of an entry by the stage's size name its pair and its half of the block. -/
theorem butterflyWritesEveryPair : Obligations.ButterflyWritesEveryPair :=
  fun lmax _ _ D h1 h2 =>
    ⟨fun _ _ hblk hk => ⟨pair_lt_of_block h1 hk hblk, bfPass_first h1 hk lmax D, bfPass_second h1 hk lmax D⟩,
      fun _ hi => exists_pair h1 h2 hi⟩

/-! ### The twiddles of a stage -/

/-- The twiddle of a stage is the root of the stage's own size (R281). -/
theorem romEntry_stage {L e : ℕ} (h : e ≤ L) (k : ℕ) : romEntry L (2 ^ L / 2 ^ e * k) = romEntry e k := by
  obtain ⟨d, rfl⟩ := Nat.exists_eq_add_of_le h
  rw [Nat.pow_add, Nat.mul_div_cancel_left _ (by positivity), Nat.mul_comm, romEntry_scale]

/-- Settles O29: an entry of a table stands at a multiple of its place in every larger one. -/
theorem rootsDependOnTheAngleAlone : Obligations.RootsDependOnTheAngleAlone :=
  fun _ _ _ k _ he hL _ => ⟨root_eq_romEntry hL k, (root_eq_romEntry hL _).trans (romEntry_stage he k)⟩

end Sys2Proof.Machine
end

section
/-! PROOFS. The elementwise commands: CONJ twice in a row (R326), and the corner cases of NORM (R320). -/

namespace Sys2Proof.Machine

/-! ### CONJ -/

theorem conjPass_conjPass (D : ℕ → Cplx) : conjPass (conjPass D) = D :=
  funext fun k => congrArg (Cplx.mk (D k).re) (fneg_fneg (D k).im)

/-- Settles O15, from the self-inverse negation of R206. -/
theorem conjTwiceRestores : Obligations.ConjTwiceRestores :=
  ⟨fun s hb => run_onePass_twice (p := .conj) hb rfl rfl fun k _ => congrFun (conjPass_conjPass s.entry) k,
    fun _ _ => rfl, conjPass_conjPass, fneg_fneg⟩

/-! ### Multiplying by a factor in (0, 1] -/

/-- A pattern with the exponent and fraction of a positive one is that pattern under the sign it has (R200). -/
theorem eq_ite_fneg_of_fields_eq {x y : Word} (hs : signOf y = false) (he : expOf x = expOf y)
    (hf : fracOf x = fracOf y) : x = if signOf x then fneg y else y := by
  split
  case isTrue hx =>
    exact eq_of_fields_eq (by rw [hx, signOf_fneg, hs]; rfl) (by rw [he, expOf_fneg]) (by rw [hf, fracOf_fneg])
  case isFalse hx => exact eq_of_fields_eq (by rw [Bool.eq_false_of_not_eq_true hx, hs]) he hf

/-- A zero keeps its pattern under a finite factor that is not negative (R205). -/
theorem fmul_of_isZero_left {a b : Word} (ha : isZero a = true) (hb : isFinite b = true) (hs : signOf b = false) :
    fmul a b = a := by
  obtain ⟨hexp, hfrac⟩ : expOf a = 0 ∧ fracOf a = 0 := by simpa [isZero] using ha
  have hfin : isFinite a = true := by simp [isFinite, hexp]
  have hmag : magnitude a = 0 := by rw [magnitude, if_pos hexp, hfrac]
  rw [fmul_of_isFinite hfin hb, hmag, Nat.zero_mul, roundSigned_zero, hs, Bool.xor_false]
  exact (eq_ite_fneg_of_fields_eq (y := 0x00000000#32) rfl hexp hfrac).symm

/-- An infinity keeps its pattern under a finite factor above zero (R205). -/
theorem fmul_of_isInf_left {a b : Word} (ha : isInf a = true) (hb : isFinite b = true) (hz : isZero b = false)
    (hs : signOf b = false) : fmul a b = a := by
  obtain ⟨hexp, hfrac⟩ : expOf a = 255 ∧ fracOf a = 0 := by simpa [isInf] using ha
  have hzero : ¬ (isZero a = true ∨ isZero b = true) := by rw [hz]; simp [isZero, hexp]
  rw [fmul_of_isInf (not_isNaN_of_isInf ha) (not_isNaN_of_isFinite hb) (.inl ha), if_neg hzero, hs]
  refine Eq.trans ?_ (eq_ite_fneg_of_fields_eq (y := 0x7F800000#32) rfl hexp hfrac).symm
  cases signOf a <;> rfl

/-- The largest finite magnitude, in units of 2^-149 (R200). -/
theorem magnitude_le_of_isFinite {x : Word} (hx : isFinite x = true) : magnitude x ≤ (2 ^ 24 - 1) * 2 ^ 253 := by
  have hexp : expOf x < 255 := by
    have := expOf_lt x
    simp only [isFinite, decide_eq_true_eq] at hx
    omega
  have hfrac := fracOf_lt x
  unfold magnitude
  split
  case isTrue => omega
  case isFalse => exact Nat.mul_le_mul (by omega) (Nat.pow_le_pow_right (by norm_num) (by omega))

/-- A factor of magnitude at most 1 never overflows a finite operand (R202, R205). -/
theorem isFinite_fmul_of_le_one {a b : Word} (ha : isFinite a = true) (hb : isFinite b = true)
    (h1 : magnitude b ≤ 2 ^ 149) : isFinite (fmul a b) = true := by
  rw [fmul_of_isFinite ha hb]
  by_cases hm : magnitude a * magnitude b = 0
  · rw [hm, roundSigned_zero]
    split <;> decide
  · have ho : magnitude a * magnitude b < (2 ^ 128 - 2 ^ 103) * 2 ^ 298 := calc
      magnitude a * magnitude b ≤ (2 ^ 24 - 1) * 2 ^ 253 * 2 ^ 149 := Nat.mul_le_mul (magnitude_le_of_isFinite ha) h1
      _ < (2 ^ 128 - 2 ^ 103) * 2 ^ 149 * 2 ^ 149 := Nat.mul_lt_mul_of_pos_right (by norm_num) (by positivity)
      _ = (2 ^ 128 - 2 ^ 103) * 2 ^ 298 := by rw [mul_assoc, ← pow_add]
    obtain ⟨-, hfin, -⟩ := magnitude_roundSigned (signOf a ^^ signOf b) hm ho
    exact hfin

/-! ### NORM -/

/-- Every constant of R60 is a value in (0, 1]. -/
theorem normK_bounds {L : ℕ} (hL : L ≤ 13) : isFinite (normK L) = true ∧ isZero (normK L) = false ∧
    signOf (normK L) = false ∧ magnitude (normK L) ≤ 2 ^ 149 := by
  have hall : ∀ L < 14, isFinite (normK L) = true ∧ isZero (normK L) = false ∧ signOf (normK L) = false ∧
      magnitude (normK L) ≤ 2 ^ 149 := by decide
  exact hall L (by omega)

theorem entryPart_normPass (L : ℕ) (D : ℕ → Cplx) (k : ℕ) (p : Part) :
    entryPart (normPass L D k) p = fmul (entryPart (D k) p) (normK L) := by
  cases p <;> rfl

/-- Settles O17: each part is multiplied by a factor in (0, 1], class by class of the part. -/
theorem normCornerCases : Obligations.NormCornerCases := by
  refine fun L D k _ hL => ⟨rfl, fun p => ?_⟩
  obtain ⟨hfin, hzero, hsign, hone⟩ := normK_bounds hL
  rw [entryPart_normPass]
  exact ⟨fun hx => fmul_of_isZero_left hx hfin hsign, fun hx => fmul_of_isInf_left hx hfin hzero hsign,
    fun hx => fmul_of_isNaN (.inl hx), fun hx => isFinite_fmul_of_le_one hx hfin hone⟩

end Sys2Proof.Machine
end

section
/-! PROOFS. The life of a command: its issue (R350), what ends it (R354), and its result under every interleaving with host
transactions (R355). -/

namespace Sys2Proof.Machine

/-! ### Every interleaving of host transactions -/

/-- The step of a running command's last pass leaves the composition of its passes and completes it, whatever host
transactions stand between its turns. -/
theorem running_interleaved {s0 : State} {i : Instr} (hi : i.wellFormed s0.sizeL.toNat = true) (evs : List Event) :
    ∀ (s : State) (j : ℕ), Running s0 s (passes i s0.sizeL.toNat) j → s.inputs = evs ++ [.engine] →
      Event.reset ∉ evs → j + evs.count .engine + 1 = (passes i s0.sizeL.toNat).length →
      ∃ u, Host.Core.run core (evs.length + 1) s = .next u ∧
        (∀ k, k < s0.size → State.entry u k =
          composePasses s0.lmax.toNat s0.sizeL.toNat (passes i s0.sizeL.toNat) s0.entry k) ∧
        (∀ a, a < dataBase ∨ entryOffset s0.size ≤ a → State.readByte u a = s0.readByte a) ∧
        State.busy u = false ∧ State.done u = true ∧ (State.pass u).toNat = (passes i s0.sizeL.toNat).length := by
  induction evs with
  | nil =>
    intro s j h hin _ hlast
    rw [List.count_nil, Nat.add_zero] at hlast
    obtain ⟨u, hu, hbuf, hbeyond, hpass, hdone, -⟩ := running_engine hi (running_begin h []) (by omega)
    obtain ⟨hub, hud⟩ := hdone hlast
    refine ⟨u, run_next ((step_engine hin).trans hu) 0, fun k hk => ?_, hbeyond, hub, hud, hpass.trans hlast⟩
    rw [hbuf k hk, List.take_of_length_le hlast.ge]
  | cons e evs ih =>
    intro s j h hin hreset hcount
    obtain ⟨hne, hreset'⟩ := not_or.1 (mt List.mem_cons.2 hreset)
    have h' := running_begin h (evs ++ [.engine])
    cases e with
    | host t =>
      rw [List.count_cons_of_ne (by simp)] at hcount
      obtain ⟨u, hu, hin', hrun⟩ := running_transact h' t
      rw [List.length_cons, run_next ((step_host hin).trans hu)]
      exact ih u j hrun hin' hreset' hcount
    | engine =>
      rw [List.count_cons_self] at hcount
      obtain ⟨u, hu, -, -, -, -, hrun, hframe⟩ := running_engine hi h' (by omega)
      rw [List.length_cons, run_next ((step_engine hin).trans hu)]
      exact ih u (j + 1) (hrun (by omega)) (congrArg State.inputs hframe) hreset' (by omega)
    | reset => exact absurd rfl hne

/-- Settles O11, by induction over the listed events: a host transaction leaves the running command as it is, and a turn of
the engine adds one pass. -/
theorem resultUnderEveryInterleaving : Obligations.ResultUnderEveryInterleaving := by
  intro i s evs hb hpass hi hseq hin hreset hcount
  have hstart : Running s s (passes i s.sizeL.toNat) 0 :=
    ⟨hb, by rw [hpass]; rfl, hseq, rfl, rfl, rfl, fun _ _ => rfl, fun _ _ => rfl⟩
  rw [hseq] at hcount ⊢
  exact running_interleaved hi evs s 0 hstart hin hreset (by omega)

/-! ### The issue of a command -/

/-- A CMD write is refused with the error of its issue. -/
theorem transact_cmdWrite_of_issueError {w : Word} {s : State} {e : ErrCode} (h : issueError w s = some e) :
    transact (cmdWrite w) s = .next (raise e (cmdWrite w) s) :=
  transact_of_firstError ((firstError_cmdWrite w s).trans h)

/-- Settles O5: the checks of R402 give a CMD write the error of its issue, and one that passes them is accepted. -/
theorem commandIssueFollowsTheRule : Obligations.CommandIssueFollowsTheRule := by
  refine fun w s => ⟨fun hb => ?_, fun hb hl => ?_, fun hb hl => ?_⟩
  · exact transact_cmdWrite_of_issueError (issueError_busy w hb)
  · exact transact_cmdWrite_of_issueError (by simp [issueError, hb, hl])
  · have hpassed : firstError (cmdWrite w) s = none := by simp [firstError_cmdWrite, issueError, hb, hl]
    obtain ⟨i, hw, -, -, hx⟩ := transact_cmd_of_passed hpassed
    exact ⟨i, hw, hx⟩

/-! ### What ends a command -/

theorem target_dataWindow {off : BitVec 18} (hlo : 0x10000 ≤ off.toNat) (hhi : off.toNat < 0x20000) :
    target off = .data ((off.toNat - 0x10000) / 8) (partOf off) := by
  rcases target_cases off with ⟨h, -⟩ | ⟨-, -, ht⟩ | ⟨h, -, -⟩ | ⟨h, -⟩
  · omega
  · exact ht
  · omega
  · omega

/-- While busy, a write to CMD, to SIZE or to any word of DATA meets the check of BUSY first (R402). -/
theorem firstError_guarded_write {s : State} (hb : s.busy = true) {off : BitVec 18} (w : Word)
    (hoff : off = 0x010#18 ∨ off = 0x00C#18 ∨ (off.toNat % 4 = 0 ∧ 0x10000 ≤ off.toNat ∧ off.toNat < 0x20000)) :
    firstError (writeAt off w) s = some .busy := by
  rcases hoff with rfl | rfl | ⟨h4, hlo, hhi⟩
  · exact (firstError_cmdWrite w s).trans (issueError_busy w hb)
  · rw [firstError_size_write, if_pos hb]
  · have ht := target_dataWindow hlo hhi
    have hm : Txn.misaligned ⟨off, .four, .write w⟩ = false := misaligned_eq_false h4
    simp [firstError, writeAt, hm, ht, hb, Target.readOnly, busyGuarded]

/-- A turn of the engine that leaves a busy block idle has counted the last pass and completed the command (R353). -/
theorem engineStep_completes {s t : State} (hb : s.busy = true) (h : engineStep s = .next t) (ht : t.busy = false) :
    t.pass.toNat = s.seq.length ∧ t.done = true := by
  rcases engineStep_cases h with ⟨hidle, -⟩ | ⟨-, p, -, rfl⟩
  · rw [hb] at hidle; cases hidle
  · have hlast : (s.pass + 1#5).toNat = s.seq.length := by
      by_contra hne
      rw [countPass_busy, runPass_pass, runPass_seq, if_neg hne, runPass_busy, hb] at ht
      cases ht
    exact ⟨(congrArg BitVec.toNat (countPass_pass (runPass p s))).trans hlast,
      (countPass_done (runPass p s)).trans (if_pos hlast)⟩

/-- A step ends a running command only by reset or by its last pass (R354). -/
theorem step_ends_command {s t : State} (hb : s.busy = true) (h : step s = .next t) (ht : t.busy = false) :
    s.inputs.head? = some .reset ∨ (t.pass.toNat = s.seq.length ∧ t.done = true) := by
  rcases step_cases s with ⟨x, rest, -, hx⟩ | ⟨rest, -, hx⟩ | ⟨rest, hin, -⟩
  · obtain ⟨u, hu, hub, -⟩ := transact_while_busy (s := s.begin rest) hb x
    obtain rfl := Host.Outcome.next.inj ((hx.trans hu).symm.trans h)
    rw [hub] at ht; cases ht
  · exact .inr (engineStep_completes (s := s.begin rest) hb (hx.symm.trans h) ht)
  · exact .inl (by rw [hin]; rfl)

/-- Settles O50: the check of BUSY guards CMD, SIZE and DATA, and of the three kinds of step only the engine's last turn and
reset clear BUSY. -/
theorem onlyResetEndsACommandEarly : Obligations.OnlyResetEndsACommandEarly := by
  refine fun s hb => ⟨fun t => ?_, fun off w hoff => ?_, fun t => step_ends_command hb⟩
  · obtain ⟨u, hu, hbusy, hseq, hpass, hsize, -, hlast, hdata, -⟩ := transact_while_busy hb t
    exact ⟨u, hu, hbusy, hseq, hpass, hsize, hlast, hdata⟩
  · exact transact_writeAt_of_firstError (firstError_guarded_write hb w hoff)

end Sys2Proof.Machine
end

section
/-! PROOFS. The error record: what a refused transaction writes in it (R401), the order of the checks (R402), and what clears
it (R404). -/

namespace Sys2Proof.Machine

/-! ### What a refused transaction records -/

/-- The fields of ERRADDR that hold a value (R68); `image_reserved` has the others. -/
theorem image_fields (t : Txn) : t.image.extractLsb' 0 18 = t.offset ∧ t.image.extractLsb' 24 2 = t.size.log2 ∧
    t.image.getLsbD 31 = t.isWrite := by
  unfold Txn.image
  refine ⟨?_, ?_, ?_⟩
  · exact BitVec.extractLsb'_append_eq_right
  · apply BitVec.eq_of_getLsbD_eq
    intro i hi
    simp only [BitVec.getLsbD_extractLsb', BitVec.getLsbD_append]
    interval_cases i <;> simp
  · simp only [BitVec.getLsbD_append]
    simp

/-- ERRF is bit 2 of STATUS (R66). -/
theorem statusWord_errf (s : State) : s.statusWord.getLsbD 2 = s.errf := by
  simp only [State.statusWord, BitVec.getLsbD_append]
  simp

/-- A refused transaction changes the error record and the word it returns, and nothing else (R401). -/
theorem refuse_frame (e : ErrCode) (t : Txn) (s : State) :
    { refuse e t s with errCode := s.errCode, errMulti := s.errMulti, errAddr := s.errAddr, errData := s.errData,
                        rdata := s.rdata } = s := by
  unfold refuse raise
  split <;> split <;> rfl

theorem wdata_eq_ite (t : Txn) : t.wdata = if t.isWrite then t.wdata else 0#32 := by
  obtain ⟨off, z, _ | w⟩ := t <;> rfl

/-- Settles O33, from what `raise` does to each field of the record. -/
theorem raiseRecordsTheFirstError : Obligations.RaiseRecordsTheFirstError := by
  intro e t s u
  obtain ⟨hoffset, hsize, hwrite⟩ := image_fields t
  obtain ⟨hlow, hhigh⟩ := image_reserved t
  refine ⟨fun hnone => ?_, fun hsome => ?_, ?_, refuse_rdata s e t, refuse_frame e t s⟩
  · have haddr : u.errAddr = t.image := by simp [u, hnone]
    have hdata : u.errData = t.wdata := by simp [u, hnone]
    rw [haddr, hdata]
    exact ⟨by simp [u, hnone], by simp [u, hnone], hoffset, hlow, hsize, hhigh, hwrite, wdata_eq_ite t⟩
  · obtain ⟨e', he'⟩ := Option.ne_none_iff_exists'.1 hsome
    simp [u, he']
  · rw [statusWord_errf]
    simp [u, State.errf]

/-! ### What leaves the record as it is -/

/-- The error record of `u` is that of `s`, field by field. -/
def SameRecord (s u : State) : Prop :=
  u.errCode = s.errCode ∧ u.errMulti = s.errMulti ∧ u.errAddr = s.errAddr ∧ u.errData = s.errData

theorem csrTarget_eq_err {n : ℕ} (h : csrTarget n = .err) : n = 0x018 := by
  unfold csrTarget at h
  grind

/-- Offset 0x018 alone names ERR (R61). -/
theorem target_eq_err {off : BitVec 18} (h : target off = .err) : off = 0x018#18 := by
  rcases target_cases off with ⟨-, ht⟩ | ⟨-, -, ht⟩ | ⟨-, -, ht⟩ | ⟨-, ht⟩ <;> rw [h] at ht
  · exact BitVec.eq_of_toNat_eq (csrTarget_eq_err ht.symm)
  · cases ht
  · cases ht
  · cases ht

theorem sameRecord_writeTarget (w : Word) (s : State) {g : Target} (h : g ≠ .err) : SameRecord s (writeTarget w s g) := by
  cases g with
  | err => exact absurd rfl h
  | _ => simp [SameRecord, writeTarget]

/-- An accepted transaction leaves the record, unless it writes ERR. -/
theorem sameRecord_access {t : Txn} (s : State) (h : ¬ (t.isWrite = true ∧ t.offset = 0x018#18)) :
    SameRecord s (access t s) := by
  obtain ⟨off, z, op⟩ := t
  cases op with
  | read => exact ⟨rfl, rfl, rfl, rfl⟩
  | write w => exact sameRecord_writeTarget w s fun ht => h ⟨rfl, target_eq_err ht⟩

theorem sameRecord_engineStep {s u : State} (h : engineStep s = .next u) : SameRecord s u := by
  rcases engineStep_cases h with ⟨-, rfl⟩ | ⟨-, p, -, rfl⟩
  · exact ⟨rfl, rfl, rfl, rfl⟩
  · simp [SameRecord]

/-- Settles O32: the machine's checks are those of the rule, and a transaction that passes them is a command's issue or an
access. -/
theorem checksRunInOrder : Obligations.ChecksRunInOrder := by
  intro t s
  rw [← firstError_eq_ruleError]
  refine ⟨fun e he => transact_of_firstError he, fun hpassed => ?_⟩
  rcases transact_by_checks t s with ⟨e, he, -⟩ | ⟨w, i, rfl, -, hw, -, -, hx⟩ | ⟨-, hc, hx⟩
  · rw [hpassed] at he; cases he
  · exact ⟨_, hx, fun _ _ => ⟨i, hw, rfl⟩, fun hc => absurd ⟨rfl, rfl⟩ hc, fun _ => ⟨rfl, rfl, rfl, rfl⟩⟩
  · exact ⟨_, hx, fun h1 h2 => absurd ⟨h1, h2⟩ hc, fun _ => rfl, sameRecord_access s⟩

/-! ### What clears the record -/

theorem firstError_err_write (w : Word) (s : State) : firstError (writeAt 0x018#18 w) s = none := by
  rw [firstError_eq_ruleError]
  simp [ruleError, writeAt]

theorem transact_err_write (w : Word) (s : State) : transact (writeAt 0x018#18 w) s = .next (clearErr s) :=
  transact_writeAt_of_passed (firstError_err_write w s) (by decide)

theorem eq_writeAt {t : Txn} (hw : t.isWrite = true) (hz : t.size = .four) : t = writeAt t.offset t.wdata := by
  obtain ⟨off, z, _ | w⟩ := t
  · cases hw
  · cases hz; rfl

/-- The record of `u` still holds what the record of `s` holds; MULTI may have been set (R401). -/
def KeepsRecord (s u : State) : Prop :=
  u.errCode = s.errCode ∧ u.errAddr = s.errAddr ∧ u.errData = s.errData ∧ (s.errMulti = true → u.errMulti = true)

theorem SameRecord.keepsRecord {s u : State} (h : SameRecord s u) : KeepsRecord s u := by
  obtain ⟨hcode, hmulti, haddr, hdata⟩ := h
  exact ⟨hcode, haddr, hdata, hmulti.trans⟩

theorem keepsRecord_refuse {s : State} {e : ErrCode} (h : s.errCode = some e) (e' : ErrCode) (t : Txn) :
    KeepsRecord s (refuse e' t s) := by
  simp [KeepsRecord, h]

/-- With an error recorded, a transaction other than the 4-byte write to ERR keeps the record (R401, R402, R404). -/
theorem keepsRecord_transact {t : Txn} {s u : State} {e : ErrCode} (h : transact t s = .next u)
    (he : s.errCode = some e) (ht : ∀ w, t ≠ writeAt 0x018#18 w) : KeepsRecord s u := by
  obtain ⟨hrefused, hpassed⟩ := checksRunInOrder t s
  rcases hf : ruleError t s with _ | e'
  · obtain ⟨u', hx, -, -, hsame⟩ := hpassed hf
    obtain rfl := Host.Outcome.next.inj (hx.symm.trans h)
    rw [← firstError_eq_ruleError] at hf
    obtain ⟨hsize, -⟩ := firstError_none hf
    exact SameRecord.keepsRecord (hsame fun ⟨hw, hoff⟩ => ht t.wdata (hoff ▸ eq_writeAt hw hsize))
  · obtain rfl := Host.Outcome.next.inj ((hrefused e' hf).symm.trans h)
    exact keepsRecord_refuse he e' t

/-- With an error recorded, only reset and a 4-byte write to ERR are steps that do not keep the record (R404). -/
theorem keepsRecord_step {s u : State} {e : ErrCode} (h : step s = .next u) (he : s.errCode = some e)
    (hreset : s.inputs.head? ≠ some .reset) (hwrite : ∀ w, s.inputs.head? ≠ some (.host (writeAt 0x018#18 w))) :
    KeepsRecord s u := by
  rcases step_cases s with ⟨t, rest, hin, hx⟩ | ⟨rest, -, hx⟩ | ⟨rest, hin, -⟩
  · refine keepsRecord_transact (s := s.begin rest) (hx.symm.trans h) he fun w ht => hwrite w ?_
    rw [hin, ht]; rfl
  · exact (sameRecord_engineStep (s := s.begin rest) (hx.symm.trans h)).keepsRecord
  · rw [hin] at hreset; exact absurd rfl hreset

/-- Settles O34: no check applies to the write to ERR, reset writes every register, and every other step keeps the record. -/
theorem onlyErrWriteAndResetClearTheRecord : Obligations.OnlyErrWriteAndResetClearTheRecord := by
  refine ⟨transact_err_write, fun s t h hreset => ?_, fun s t e h he hreset hwrite => ?_⟩
  · obtain ⟨rest, hin⟩ := List.head?_eq_some_iff.1 hreset
    obtain rfl := Host.Outcome.next.inj ((step_reset hin).symm.trans h)
    exact ⟨rfl, rfl, rfl, rfl⟩
  · obtain ⟨hcode, hrest⟩ := keepsRecord_step h he hreset hwrite
    exact ⟨hcode.trans he, hrest⟩

end Sys2Proof.Machine
end

section
/-! PROOFS. Encoding and decoding of command words (R150-R157). -/

namespace Sys2Proof

/-- The four byte lanes read from a word assembled from them (R104); `wordOfBytes_lanes` is the converse. -/
theorem wordBytes_wordOfBytes (b0 b1 b2 b3 : Byte) : wordBytes (wordOfBytes b0 b1 b2 b3) = [b0, b1, b2, b3] := by
  simp only [wordBytes, wordOfBytes, List.cons.injEq, and_true]
  refine ⟨?_, ?_, ?_, ?_⟩
  all_goals
    apply BitVec.eq_of_getLsbD_eq
    intro j hj
    simp only [BitVec.getLsbD_extractLsb', BitVec.getLsbD_append]
    interval_cases j <;> simp

/-- A byte string that decodes is the byte lanes of its command's word (R157). -/
theorem eq_wordBytes_of_decodeBytes {l : List Byte} {i : Instr} (h : decodeBytes l = .ok i) :
    l = wordBytes (encode i) := by
  match l, h with
  | [b0, b1, b2, b3], h => rw [← encode_of_decode h, wordBytes_wordOfBytes]

theorem decodeBytes_of_length_ne {l : List Byte} (h : l.length ≠ 4) : decodeBytes l = .error .notOneWord := by
  match l, h with
  | [_, _, _, _], h => exact absurd rfl h
  | [], _ | [_], _ | [_, _], _ | [_, _, _], _ | _ :: _ :: _ :: _ :: _ :: _, _ => rfl

/-- A full command word keeps all of its bits as a table word. -/
theorem tableWord_toNat (w : Word) : tableWord 32 w.toNat = w := by
  rw [tableWord, Nat.mod_eq_of_lt w.isLt, BitVec.ofNat_toNat, BitVec.setWidth_eq]

theorem decodeTableWord_of_decodeWord {w : Word} {i : Instr} (h : decodeWord w = .ok i) :
    decodeTableWord 32 w.toNat = some i := by
  rw [decodeTableWord, if_pos le_rfl, tableWord_toNat, decodeBytes_wordBytes, h]
  rfl

/-- Settles O1: a word and its byte lanes determine each other, and so do a command and its word. -/
theorem decodeAndEncodeAgree : Obligations.DecodeAndEncodeAgree :=
  ⟨fun i => ⟨by rw [decodeBytes_wordBytes, decode_encode], decodeTableWord_of_decodeWord (decode_encode i)⟩,
    fun _ _ h => eq_wordBytes_of_decodeBytes h, fun _ h => decodeBytes_of_length_ne h⟩

/-- Settles O2: a legal word decodes, and the word of a command is legal where the command is well formed. -/
theorem legalWordsAreTheWellFormedCommands : Obligations.LegalWordsAreTheWellFormedCommands := by
  refine fun w L => ⟨fun hl => ?_, fun ⟨i, hw, hi⟩ => ?_⟩
  · obtain ⟨i, hw⟩ := decodes_of_legal hl
    exact ⟨i, hw, by rwa [encode_of_decode hw, legal_encode] at hl⟩
  · rwa [encode_of_decode hw, legal_encode]

/-- Settles O3, word by word. -/
theorem specWordsDecode : Obligations.SpecWordsDecode := by
  unfold Obligations.SpecWordsDecode
  decide

end Sys2Proof
end

section
/-! PROOFS. What a step does (R101), how a command is issued or turned away (R350, R153), and the invariant of the block. -/

namespace Sys2Proof.Machine

/-! ### The step of one agent -/

/-- Settles O9: the head of the schedule names the agent. -/
theorem stepIsOneAgentsStep : Obligations.StepIsOneAgentsStep :=
  fun _ => ⟨fun _ _ h => step_host h, fun _ h => step_engine h,
    fun h => (step_unlisted h).trans (by rw [State.begin, ← h]), fun _ h => step_reset h⟩

/-- Settles O4: a placed word is a listed CMD write to a block made idle. -/
theorem stepRunsTheDecodedCommand : Obligations.StepRunsTheDecodedCommand := by
  refine fun s w i hw => ⟨fun rest h => step_command h hw, ?_⟩
  rw [State.withFetchWord, tableWord_toNat]
  exact step_command (placeCommand_inputs s w) hw

/-! ### The issue of a command -/

/-- BFLY's word with its exponent in the field STG (R151, R154). -/
theorem encode_bfly (e : BitVec 4) : encode (.bfly e) = 0x00000002#32 ||| (e.setWidth 32 <<< 8) := by
  revert e
  decide

theorem wellFormed_bfly_iff (L : ℕ) (e : BitVec 4) :
    Instr.wellFormed L (.bfly e) = true ↔ 1 ≤ e.toNat ∧ e.toNat ≤ L := by
  simp [Instr.wellFormed]

/-- Settles O6: an accepted command is issued with its word and its sequence of R351. -/
theorem everyCommandIsAccepted : Obligations.EveryCommandIsAccepted := by
  refine fun s hb => ⟨exec_accepted hb rfl, fun e h1 h2 => ?_, exec_accepted hb rfl, exec_accepted hb rfl,
    exec_accepted hb rfl, exec_accepted hb rfl⟩
  rw [← encode_bfly]
  exact exec_accepted hb ((wellFormed_bfly_iff _ e).2 ⟨h1, h2⟩)

/-- Settles O7, by the error that the issue of the command gives. -/
theorem commandsTurnedAway : Obligations.CommandsTurnedAway := by
  refine fun s => ⟨fun i hb => ?_, fun e hb he => ?_⟩
  · rw [exec_eq_issue, issue_busy i _ hb]
  · have hi : Instr.wellFormed s.sizeL.toNat (.bfly e) = false := by
      rw [← Bool.not_eq_true, wellFormed_bfly_iff]
      omega
    rw [exec_eq_issue, issue_illegal _ hb hi]

/-! ### The invariant of the block -/

theorem inv_transact {s u : State} {t : Txn} (h : Inv s) (hu : transact t s = .next u) : Inv u := by
  rcases transact_cases t s with ⟨i, -, hx⟩ | ⟨e, -, -, hx⟩ | ⟨-, hn, hx⟩ <;>
    obtain rfl := Host.Outcome.next.inj (hx.symm.trans hu)
  · exact inv_issue h i
  · exact inv_refuse h e t
  · exact inv_access h hn

theorem inv_engineStep {s u : State} (h : Inv s) (hu : engineStep s = .next u) : Inv u := by
  rcases engineStep_cases hu with ⟨-, rfl⟩ | ⟨hb, p, -, rfl⟩
  · exact h
  · exact inv_countPass (inv_runPass h p) hb

/-- Settles O54, agent by agent. -/
theorem everyStepKeepsTheInvariant : Obligations.EveryStepKeepsTheInvariant := by
  intro s u h hu
  rcases step_cases s with ⟨t, rest, -, hx⟩ | ⟨rest, -, hx⟩ | ⟨rest, -, hx⟩
  · exact inv_transact (inv_begin h rest) (hx.symm.trans hu)
  · exact inv_engineStep (inv_begin h rest) (hx.symm.trans hu)
  · obtain rfl := Host.Outcome.next.inj (hx.symm.trans hu)
    exact inv_resetStep (inv_begin h rest)

/-- Settles O53: LMAX = 12 and L = 1 are legal, and every other clause is about a field that reset clears. -/
theorem invariantHoldsAtReset : Obligations.InvariantHoldsAtReset where
  lmax_legal := by decide
  size_legal := by decide
  data_canonical := rfl
  data_in_ram := fun _ hc => absurd hc List.not_mem_nil
  pass_busy := fun hb => Bool.noConfusion hb
  pass_idle := fun _ => rfl
  done_idle := fun hb => Bool.noConfusion hb
  seq_last := .inl ⟨rfl, rfl⟩
  record_clear := fun _ => ⟨rfl, rfl, rfl⟩
  addr_reserved := zero_reserved

theorem engineStep_goesOn {s : State} (h : Inv s) : GoesOn (engineStep s) := by
  cases hb : s.busy with
  | false => exact ⟨s, engineStep_idle hb⟩
  | true =>
    obtain ⟨p, hp⟩ := pass_of_busy h hb
    exact ⟨_, engineStep_busy hb hp⟩

/-- Settles O55: only the engine can stop, and the invariant leaves it a pass while a command runs. -/
theorem theBlockNeverStops : Obligations.TheBlockNeverStops := by
  intro s h
  rcases step_cases s with ⟨t, rest, -, hx⟩ | ⟨rest, -, hx⟩ | ⟨rest, -, hx⟩ <;> rw [hx]
  · exact transact_goesOn t _
  · exact engineStep_goesOn (inv_begin h rest)
  · exact ⟨_, rfl⟩

end Sys2Proof.Machine
end

section
/-! PROOFS. The result of a command that runs alone (R355, R460), and of several issued one after the other (R360, R365). -/

namespace Sys2Proof.Machine

/-! ### A command that runs alone -/

/-- `u` differs from `s` at most where turns of the engine write: DATA, PASS, BUSY, DONE, and the port's last word. -/
def EngineFrame (s u : State) : Prop :=
  { u with data := s.data, pass := s.pass, busy := s.busy, done := s.done, rdata := s.rdata } = s

theorem EngineFrame.trans {s t u : State} (h1 : EngineFrame s t) (h2 : EngineFrame t u) : EngineFrame s u := by
  unfold EngineFrame at *
  rw [← h2] at h1
  exact h1

theorem engineFrame_begin {s : State} (h : s.inputs = []) : EngineFrame s (s.begin []) := by
  unfold EngineFrame State.begin
  rw [← h]

/-- What a turn of the engine leaves as it is, `countPass_runPass_frame`. -/
theorem engineFrame_turn {s t : State}
    (h : { t with data := s.data, pass := s.pass, busy := s.busy, done := s.done } = s) : EngineFrame s t := by
  unfold EngineFrame
  exact congrArg (fun x : State => { x with rdata := s.rdata }) h

/-- `u` is the completed run of the passes of command `i` on the buffer of `s0` (R353, R355). -/
structure Completed (s0 u : State) (i : Instr) : Prop where
  buffer : ∀ k, k < s0.size →
    u.entry k = composePasses s0.lmax.toNat s0.sizeL.toNat (passes i s0.sizeL.toNat) s0.entry k
  beyond : ∀ a, a < dataBase ∨ entryOffset s0.size ≤ a → u.readByte a = s0.readByte a
  pass : u.pass.toNat = (passes i s0.sizeL.toNat).length
  busy : u.busy = false
  done : u.done = true

/-- A turn that the engine has with nothing listed, in a running command. -/
theorem running_unlisted {s0 s : State} {i : Instr} {j : ℕ} (hi : i.wellFormed s0.sizeL.toNat = true)
    (h : Running s0 s (passes i s0.sizeL.toNat) j) (hj : j < (passes i s0.sizeL.toNat).length) (hin : s.inputs = []) :
    ∃ t, step s = .next t ∧ EngineFrame s t ∧ t.inputs = [] ∧
      (j + 1 < (passes i s0.sizeL.toNat).length → Running s0 t (passes i s0.sizeL.toNat) (j + 1)) ∧
      (j + 1 = (passes i s0.sizeL.toNat).length → Completed s0 t i) := by
  obtain ⟨t, ht, hbuf, hbeyond, hpass, hdone, hrun, hframe⟩ := running_engine hi (running_begin h []) hj
  refine ⟨t, (step_unlisted hin).trans ht,
    (engineFrame_begin hin).trans (engineFrame_turn hframe),
    congrArg State.inputs hframe, hrun, fun hlast => ?_⟩
  obtain ⟨htb, htd⟩ := hdone hlast
  rw [hlast, List.take_of_length_le le_rfl] at hbuf
  exact ⟨hbuf, hbeyond, hpass.trans hlast, htb, htd⟩

/-- With nothing listed, a running command has the turns that it needs (R460). -/
theorem run_unlisted {s0 : State} {i : Instr} (hi : i.wellFormed s0.sizeL.toNat = true) (n : ℕ) :
    ∀ (s : State) (j : ℕ), Running s0 s (passes i s0.sizeL.toNat) j → s.inputs = [] →
      j + n + 1 = (passes i s0.sizeL.toNat).length →
      ∃ u, Host.Core.run core (n + 1) s = .next u ∧ Completed s0 u i ∧ EngineFrame s u := by
  induction n with
  | zero =>
    intro s j h hin hlast
    obtain ⟨u, hu, hframe, -, -, hdone⟩ := running_unlisted hi h (by omega) hin
    exact ⟨u, run_next hu 0, hdone hlast, hframe⟩
  | succ n ih =>
    intro s j h hin hlast
    obtain ⟨t, ht, hframe, hin', hrun, -⟩ := running_unlisted hi h (by omega) hin
    obtain ⟨u, hu, hdone, hframe'⟩ := ih t (j + 1) (hrun (by omega)) hin' (by omega)
    exact ⟨u, (run_next ht (n + 1)).trans hu, hdone, hframe.trans hframe'⟩

/-- An accepted command that has completed has changed LASTCMD, SEQ, BUSY and DONE, and DATA and PASS by its passes. -/
theorem frame_of_completed {s u : State} {i : Instr} (w : Word) (ps : List Pass) (hdone : Completed s u i)
    (hframe : EngineFrame (accept w ps s) u) : { u with data := s.data, pass := s.pass, rdata := s.rdata } =
      { s with lastCmd := w, seq := ps, busy := false, done := true } := by
  obtain ⟨-, -, -, hub, hud⟩ := hdone
  cases u
  cases hub
  cases hud
  exact congrArg (fun x : State => { x with pass := s.pass, busy := false, done := true }) hframe

/-- Settles O10, by induction over the turns of the engine. -/
theorem everyCommandRunsToItsResult : Obligations.EveryCommandRunsToItsResult := by
  intro i s hb hi hin
  obtain ⟨n, hn⟩ := Nat.exists_eq_add_of_lt (passes_length_pos i s.sizeL.toNat)
  obtain ⟨u, hu, hdone, hframe⟩ := run_unlisted hi n _ 0 (running_accept s (encode i) _) hin hn.symm
  rw [← Nat.zero_add n, ← hn] at hu
  refine ⟨_, u, exec_accepted hb hi, hu, hdone.buffer, hdone.beyond, ?_, frame_of_completed _ _ hdone hframe⟩
  rw [← hdone.pass, BitVec.ofNat_toNat, BitVec.setWidth_eq]

/-! ### Commands issued one after the other -/

/-- The composition of passes of well-formed commands reads entries of the buffer alone (R54). -/
theorem composePasses_congr {lmax L : ℕ} {D D' : ℕ → Cplx} (ps : List Pass)
    (hps : ∀ p ∈ ps, ∃ i : Instr, i.wellFormed L = true ∧ p ∈ passes i L) (h : ∀ k, k < 2 ^ L → D k = D' k) :
    ∀ k, k < 2 ^ L → composePasses lmax L ps D k = composePasses lmax L ps D' k := by
  induction ps generalizing D D' with
  | nil => exact h
  | cons p ps ih =>
    obtain ⟨i, hi, hp⟩ := hps p List.mem_cons_self
    exact ih (fun q hq => hps q (List.mem_cons_of_mem p hq)) fun k hk => applyPass_congr hi hp h hk

theorem composePasses_append (lmax L : ℕ) (ps qs : List Pass) (D : ℕ → Cplx) :
    composePasses lmax L (ps ++ qs) D = composePasses lmax L qs (composePasses lmax L ps D) :=
  List.foldl_append

/-- Command `i` is well formed at size `L`, and the script `n` gives it its turns. -/
def Timed (n : Instr → ℕ) (L : ℕ) (i : Instr) : Prop := i.wellFormed L = true ∧ n i = (passes i L).length

/-- Well-formed commands issued one after the other to an idle block, each with its turns: the buffer holds the composition
of all their passes, and every entry beyond it is kept. -/
theorem run_script (n : Instr → ℕ) (is : List Instr) :
    ∀ s : State, s.busy = false → s.inputs = script n is → (∀ i ∈ is, Timed n s.sizeL.toNat i) →
      ∃ u, Host.Core.run core (script n is).length s = .next u ∧
        (∀ k, k < s.size → State.entry u k =
          composePasses s.lmax.toNat s.sizeL.toNat (is.flatMap (passes · s.sizeL.toNat)) s.entry k) ∧
        (∀ k, s.size ≤ k → State.entry u k = s.entry k) := by
  induction is with
  | nil => exact fun s _ _ _ => ⟨s, rfl, fun _ _ => rfl, fun _ _ => rfl⟩
  | cons i is ih =>
    intro s hb hin htimed
    obtain ⟨⟨hi, hn⟩, htimed'⟩ := List.forall_mem_cons.1 htimed
    have hscript : script n (i :: is) =
        .host (cmdWrite (encode i)) :: (List.replicate (passes i s.sizeL.toNat).length .engine ++ script n is) := by
      rw [← hn]; rfl
    obtain ⟨t, ht, hbuf, hbeyond, htb, -, hL, hlmax, hin'⟩ := run_command hb hi (hin.trans hscript)
    have hsize : State.size t = s.size := congrArg (2 ^ ·.toNat) hL
    obtain ⟨u, hu, hbuf', hbeyond'⟩ := ih t htb hin' (by rwa [hL])
    rw [hL, hlmax, hsize] at hbuf'
    rw [hsize] at hbeyond'
    have hlen : (script n (i :: is)).length = (passes i s.sizeL.toNat).length + 1 + (script n is).length := by
      rw [hscript, List.length_cons, List.length_append, List.length_replicate, Nat.add_right_comm]
    refine ⟨u, by rw [hlen]; exact (run_add _ ht).trans hu, fun k hk => ?_, fun k hk => ?_⟩
    · rw [hbuf' k hk, List.flatMap_cons, composePasses_append]
      refine composePasses_congr _ (fun p hp => ?_) hbuf k hk
      obtain ⟨j, hj, hp⟩ := List.mem_flatMap.1 hp
      exact ⟨j, (htimed' j hj).1, hp⟩
    · rw [hbeyond' k hk]
      exact entry_congr fun j _ => hbeyond _ (.inr (by simp only [entryOffset]; omega))

/-- Two lists of commands with the same passes in all leave the same entries, each issued to the same idle block. -/
theorem same_entries_of_same_passes {s : State} {is js : List Instr} {n m : Instr → ℕ} {a b : ℕ} (hb : s.busy = false)
    (his : ∀ i ∈ is, Timed n s.sizeL.toNat i) (hjs : ∀ j ∈ js, Timed m s.sizeL.toNat j)
    (hpasses : is.flatMap (passes · s.sizeL.toNat) = js.flatMap (passes · s.sizeL.toNat))
    (ha : (script n is).length = a) (hb' : (script m js).length = b) :
    ∃ u v, Host.Core.run core a { s with inputs := script n is } = .next u ∧
      Host.Core.run core b { s with inputs := script m js } = .next v ∧
      ∀ k, State.entry u k = State.entry v k := by
  subst ha hb'
  obtain ⟨u, hu, hbuf, hbeyond⟩ := run_script n is { s with inputs := script n is } hb rfl his
  obtain ⟨v, hv, hbuf', hbeyond'⟩ := run_script m js { s with inputs := script m js } hb rfl hjs
  refine ⟨u, v, hu, hv, fun k => ?_⟩
  rcases lt_or_ge k s.size with hk | hk
  · exact (hbuf k hk).trans ((congrArg (composePasses _ _ · _ k) hpasses).trans (hbuf' k hk).symm)
  · exact (hbeyond k hk).trans (hbeyond' k hk).symm

/-! ### FWD in single passes (R360) -/

/-- FWD as commands of one pass. -/
def stepwiseForward (L : ℕ) : List Instr :=
  .bitrev :: (List.range' 1 L).map (fun e => .bfly (BitVec.ofNat 4 e)) ++ [.norm]

/-- An exponent up to a 4-bit size fits the field STG. -/
theorem toNat_stage {l : BitVec 4} {e : ℕ} (he : e ∈ List.range' 1 l.toNat) :
    1 ≤ e ∧ e ≤ l.toNat ∧ (BitVec.ofNat 4 e).toNat = e := by
  rw [List.mem_range'_1] at he
  exact ⟨he.1, by omega, by rw [BitVec.toNat_ofNat]; omega⟩

theorem timed_stepwiseForward (l : BitVec 4) : ∀ i ∈ stepwiseForward l.toNat, Timed (fun _ => 1) l.toNat i := by
  intro i h
  simp only [stepwiseForward, List.mem_append, List.mem_cons, List.mem_map, List.not_mem_nil, or_false] at h
  rcases h with (rfl | ⟨e, he, rfl⟩) | rfl
  · exact ⟨rfl, rfl⟩
  · obtain ⟨h1, h2, hval⟩ := toNat_stage he
    exact ⟨by rw [wellFormed_bfly_iff, hval]; exact ⟨h1, h2⟩, rfl⟩
  · exact ⟨rfl, rfl⟩

theorem passes_stepwiseForward (l : BitVec 4) :
    (stepwiseForward l.toNat).flatMap (passes · l.toNat) = passes .fwd l.toNat := by
  have hstages : (List.range' 1 l.toNat).flatMap (fun e => passes (.bfly (BitVec.ofNat 4 e)) l.toNat) =
      (List.range' 1 l.toNat).map .bf := by
    rw [List.map_eq_flatMap]
    exact List.flatMap_congr fun e he => by rw [passes, (toNat_stage he).2.2]
  rw [stepwiseForward, List.flatMap_append, List.flatMap_cons, List.flatMap_map, hstages]
  rfl

theorem length_script_one (is : List Instr) : (script (fun _ => 1) is).length = 2 * is.length := by
  simp [script, Nat.mul_comm]

theorem length_stepwiseForward (L : ℕ) : (stepwiseForward L).length = L + 2 := by simp [stepwiseForward]

/-- Settles O12: the stepwise commands have the passes of FWD, one each. -/
theorem forwardEqualsTheStepwiseCommands : Obligations.ForwardEqualsTheStepwiseCommands := by
  intro s hb stepwise
  refine same_entries_of_same_passes (is := [.fwd]) (js := stepwiseForward s.sizeL.toNat) hb ?_
    (timed_stepwiseForward s.sizeL) ?_ ?_ ?_
  · exact List.forall_mem_singleton.2 ⟨rfl, by simp [passes]⟩
  · rw [passes_stepwiseForward, List.flatMap_singleton]
  · simp [script]
  · rw [length_script_one, length_stepwiseForward]

/-! ### INV between two conjugations (R365) -/

/-- Settles O13: the three commands have the passes of INV, one after the other. -/
theorem inverseIsConjugatedForward : Obligations.InverseIsConjugatedForward := by
  intro s hb turns
  refine same_entries_of_same_passes (is := [.inv]) (js := [.conj, .fwd, .conj]) hb ?_ ?_ ?_ ?_ ?_
  · exact List.forall_mem_singleton.2 ⟨rfl, rfl⟩
  · intro i hi
    simp only [List.mem_cons, List.not_mem_nil, or_false] at hi
    rcases hi with rfl | rfl | rfl <;> exact ⟨rfl, rfl⟩
  · simp [passes]
  · simp [script, turns, passes]
  · simp [script, turns, passes]

end Sys2Proof.Machine
end

section
/-! PROOFS. Rounding (R202), and the exact cases of addition and multiplication (R208, R210, R214). -/

namespace Sys2Proof.Machine

/-- Settles O18: a nonzero quotient is rounded to nearest, and a zero takes the sign asked for. -/
theorem roundingIsNearestTiesToEven : Obligations.RoundingIsNearestTiesToEven :=
  ⟨fun _ q hn => isRounded_rne hn q, fun q =>
    ⟨roundSigned_zero false q, roundSigned_zero false q, roundSigned_zero true q⟩⟩

/-! ### Commutativity -/

/-- An infinity is its sign (R201). -/
theorem eq_of_isInf {a b : Word} (ha : isInf a = true) (hb : isInf b = true) (h : signOf a = signOf b) : a = b := by
  obtain ⟨hea, hfa⟩ : expOf a = 255 ∧ fracOf a = 0 := by simpa [isInf] using ha
  obtain ⟨heb, hfb⟩ : expOf b = 255 ∧ fracOf b = 0 := by simpa [isInf] using hb
  exact eq_of_fields_eq h (hea.trans heb.symm) (hfa.trans hfb.symm)

theorem fadd_comm (a b : Word) : fadd a b = fadd b a := by
  by_cases hnan : isNaN a = true ∨ isNaN b = true
  · rw [fadd_of_isNaN hnan, fadd_of_isNaN hnan.symm]
  obtain ⟨hna, hnb⟩ := not_or.1 hnan
  rcases (class_cases a).resolve_left hna with ha | ha <;> rcases (class_cases b).resolve_left hnb with hb | hb
  case inl.inl =>
    rw [fadd_of_isInf ha hb, fadd_of_isInf hb ha]
    by_cases hs : signOf a = signOf b
    · rw [if_pos hs, if_pos hs.symm, eq_of_isInf ha hb hs]
    · rw [if_neg hs, if_neg (Ne.symm hs)]
  case inl.inr => rw [fadd_of_isInf_left ha hb, fadd_of_isInf_right hb ha]
  case inr.inl => rw [fadd_of_isInf_right ha hb, fadd_of_isInf_left hb ha]
  case inr.inr => simp only [fadd_of_isFinite ha hb, fadd_of_isFinite hb ha, add_comm (scaled a), and_comm]

/-- Every test and every operation in R205 is symmetric in the operands. -/
theorem fmul_comm (a b : Word) : fmul a b = fmul b a := by
  simp only [fmul, Bool.or_comm (isNaN a), Bool.or_comm (isInf a), Bool.or_comm (isZero a), Bool.xor_comm (signOf a),
    Nat.mul_comm (magnitude a)]

/-- Settles O24: sums class by class of the operands, products test by test. -/
theorem additionAndMultiplicationCommute : Obligations.AdditionAndMultiplicationCommute :=
  fun a b => ⟨fadd_comm a b, fmul_comm a b⟩

/-! ### Rounding a value -/

/-- A finite value lies below the threshold of R202. -/
theorem abs_value_lt_of_isFinite {x : Word} (hx : isFinite x = true) : |value x| < 2 ^ 128 - 2 ^ 103 := by
  have habs : |value x| = magnitude x / 2 ^ 149 := by
    rw [value, abs_div, abs_of_pos (a := (2 : ℚ) ^ 149) (by positivity), scaled]
    split <;> simp
  rw [habs, div_lt_iff₀ (by positivity)]
  exact (Nat.cast_le.2 (magnitude_le_of_isFinite hx)).trans_lt (by norm_num)

/-- A nonzero value is its own rounding, and its one pattern is the result (R202). -/
theorem eq_of_isRounded_value {x y : Word} (hx : isFinite x = true) (h0 : value x ≠ 0) (h : IsRounded (value x) y) :
    y = x := by
  rw [IsRounded, if_neg (not_le.2 (abs_value_lt_of_isFinite hx))] at h
  obtain ⟨-, hnear, -⟩ := h
  have hdist := hnear x hx
  rw [sub_self, abs_zero, abs_nonpos_iff, sub_eq_zero] at hdist
  exact (eq_of_value_eq hdist.symm h0).symm

/-! ### Sums below 2^-126 -/

/-- The pattern of `n` units of 2^-149 (R200). -/
theorem value_of_small {n : ℤ} (hn : n.natAbs < 2 ^ 24) :
    ∃ z : Word, isFinite z = true ∧ value z = n / 2 ^ 149 := by
  obtain ⟨hsign, hexp, hfrac⟩ := fields_pattern (decide (n < 0)) n.natAbs (by omega)
  refine ⟨_, by rw [isFinite, hexp, decide_eq_true_eq]; omega, ?_⟩
  have hmag : magnitude (BitVec.ofBool (decide (n < 0)) ++ BitVec.ofNat 31 n.natAbs : Word) = n.natAbs := by
    rw [magnitude, hexp, hfrac]
    split
    case isTrue => omega
    case isFalse => rw [show n.natAbs / 2 ^ 23 - 1 = 0 by omega]; omega
  have hscaled : scaled (BitVec.ofBool (decide (n < 0)) ++ BitVec.ofNat 31 n.natAbs : Word) = n := by
    rw [scaled, hsign, hmag]
    simp only [decide_eq_true_eq]
    split <;> omega
  rw [value, hscaled]

theorem natAbs_scaled_of_expOf_eq_zero {x : Word} (h : expOf x = 0) : (scaled x).natAbs < 2 ^ 23 := by
  have hfrac := fracOf_lt x
  rw [scaled, magnitude, if_pos h]
  split <;> omega

/-- Settles O25: the sum is a value of its own, which rounding leaves. -/
theorem subnormalSumsAreExact : Obligations.SubnormalSumsAreExact := by
  intro a b ha hb
  have hfa : isFinite a = true := by simp [isFinite, ha]
  have hfb : isFinite b = true := by simp [isFinite, hb]
  obtain ⟨-, -, -, -, hsum⟩ := additionFollowsTheRule a b
  obtain ⟨hzero, hround⟩ := hsum hfa hfb
  by_cases h0 : value a + value b = 0
  · rw [hzero h0, h0, value_eq_zero_iff]
    split <;> decide
  · have := natAbs_scaled_of_expOf_eq_zero ha
    have := natAbs_scaled_of_expOf_eq_zero hb
    obtain ⟨z, hz, hval⟩ := value_of_small (n := scaled a + scaled b) (by omega)
    rw [← value_add] at hval
    rw [← hval] at h0 hround
    rw [eq_of_isRounded_value hz h0 (hround h0)]
    exact ⟨hz, hval⟩

/-! ### Multiplying by 1 and by +0 -/

theorem value_one : value 0x3F800000#32 = 1 := by
  have : scaled 0x3F800000#32 = 2 ^ 149 := by decide
  rw [value, this]
  norm_num

/-- The value 0 has the two zeros as its patterns (R201). -/
theorem zero_of_value_eq_zero {x : Word} (h : value x = 0) :
    isZero x = true ∧ (x = 0x00000000#32 ∨ x = 0x80000000#32) := by
  obtain ⟨hexp, hfrac⟩ := magnitude_inj (y := 0x00000000#32) ((value_eq_zero_iff x).1 h)
  refine ⟨by rw [isZero, hexp, hfrac]; decide, ?_⟩
  have hx := eq_ite_fneg_of_fields_eq (y := 0x00000000#32) rfl hexp hfrac
  split at hx
  · exact .inr hx
  · exact .inl hx

/-- Multiplying by 1 keeps every pattern that is no NaN (R214). -/
theorem fmul_one {x : Word} (hx : isNaN x = false) : fmul x 0x3F800000#32 = x := by
  rcases (class_cases x).resolve_left (by simp [hx]) with hinf | hfin
  · exact fmul_of_isInf_left hinf (by decide) (by decide) (by decide)
  by_cases h0 : value x = 0
  · exact fmul_of_isZero_left (zero_of_value_eq_zero h0).1 (by decide) (by decide)
  · obtain ⟨-, -, hprod⟩ := multiplicationFollowsTheRule x 0x3F800000#32
    obtain ⟨-, hround⟩ := hprod hfin (by decide)
    rw [value_one, mul_one] at hround
    exact eq_of_isRounded_value hfin h0 (hround h0)

/-- A finite pattern times +0 is the zero of its sign (R205). -/
theorem fmul_zero {x : Word} (hx : isFinite x = true) :
    fmul x 0x00000000#32 = if signOf x then 0x80000000#32 else 0x00000000#32 := by
  rw [fmul_of_isFinite hx (by decide), show magnitude 0x00000000#32 = 0 by decide, Nat.mul_zero, roundSigned_zero,
    show signOf 0x00000000#32 = false by decide, Bool.xor_false]

/-- Adding a zero keeps every finite pattern but -0 under +0 (R203). -/
theorem fadd_zero {x : Word} (hx : isFinite x = true) (neg : Bool) :
    fadd x (if neg then 0x80000000#32 else 0x00000000#32) =
      if x = 0x80000000#32 ∧ neg = false then 0x00000000#32 else x := by
  by_cases h0 : value x = 0
  · obtain ⟨-, rfl | rfl⟩ := zero_of_value_eq_zero h0 <;> cases neg <;> decide
  · have hne : x ≠ 0x80000000#32 := by
      rintro rfl
      exact h0 ((value_eq_zero_iff _).2 (by decide))
    have hz : isFinite (if neg then 0x80000000#32 else 0x00000000#32) = true ∧
        value (if neg then 0x80000000#32 else 0x00000000#32) = 0 := by
      rw [value_eq_zero_iff]
      cases neg <;> decide
    obtain ⟨-, -, -, -, hsum⟩ := additionFollowsTheRule x (if neg then 0x80000000#32 else 0x00000000#32)
    obtain ⟨-, hround⟩ := hsum hx hz.1
    rw [hz.2, add_zero] at hround
    rw [eq_of_isRounded_value hx h0 (hround h0), if_neg fun h => hne h.1]

theorem fneg_zero (neg : Bool) : fneg (if neg then 0x80000000#32 else 0x00000000#32) =
    if !neg then 0x80000000#32 else 0x00000000#32 := by
  cases neg <;> rfl

/-- Settles O26: of the four products two are exact zeros, whose sign decides what is added to a zero part. -/
theorem exactCasesOfMultiplication : Obligations.ExactCasesOfMultiplication := by
  refine ⟨fun x => fmul_one, fun x => fmul_zero, fun x hre him => ?_⟩
  rw [cmul, fmul_one (not_isNaN_of_isFinite hre), fmul_one (not_isNaN_of_isFinite him), fmul_zero hre, fmul_zero him,
    fsub, fneg_zero, fadd_zero hre, fadd_comm _ x.im, fadd_zero him]
  simp only [Bool.not_eq_false']

end Sys2Proof.Machine
end

section
/-! PROOFS. Reads (R113), the registers STATUS, ERR and CMD (R65-R67), and the enables of the interrupt (R410). -/

namespace Sys2Proof.Machine

/-! ### Reads -/

/-- Settles O40: a read that passes the checks only returns a word, and any other is refused. -/
theorem readsHaveNoSideEffects : Obligations.ReadsHaveNoSideEffects := by
  intro off z s
  rw [← firstError_eq_ruleError]
  refine ⟨fun h => ⟨_, transact_of_passed h fun hw => Bool.noConfusion hw.1⟩, fun e h => ?_⟩
  exact ⟨_, transact_of_firstError h, refuse_rdata s e _, refuse_frame e _ s⟩

/-! ### STATUS and ERR -/

/-- The fields of STATUS (R66); `statusWord_errf` has ERRF. -/
theorem statusWord_fields (s : State) : s.statusWord.getLsbD 0 = s.busy ∧ s.statusWord.getLsbD 1 = s.done ∧
    s.statusWord.extractLsb' 3 5 = 0#5 ∧ s.statusWord.extractLsb' 8 5 = s.pass ∧
    s.statusWord.extractLsb' 13 19 = 0#19 := by
  unfold State.statusWord
  generalize s.busy = a
  generalize s.done = b
  generalize s.errf = c
  generalize s.pass = p
  revert a b c p
  decide

theorem firstError_status_write (w : Word) (s : State) : firstError (writeAt 0x014#18 w) s = none := by
  rw [firstError_eq_ruleError]
  simp [ruleError, writeAt]

theorem writeStatus_eq (w : Word) (s : State) : writeStatus w s = { s with done := s.done && !w.getLsbD 1 } := by
  unfold writeStatus
  cases w.getLsbD 1 <;> simp

/-- Settles O41: no check applies to STATUS, idle or busy. -/
theorem statusRegister : Obligations.StatusRegister := by
  refine fun s w => ⟨⟨s.statusWord, transact_register_read 0x014#18 s (by decide) (by decide), ?_⟩, ?_⟩
  · obtain ⟨hbusy, hdone, hrest⟩ := statusWord_fields s
    exact ⟨hbusy, hdone, statusWord_errf s, hrest⟩
  · rw [← writeStatus_eq]
    exact transact_writeAt_of_passed (firstError_status_write w s) (by decide)

/-- The fields of ERR (R67). -/
theorem errWord_fields (s : State) : s.errWord.extractLsb' 0 4 = s.code ∧ s.errWord.extractLsb' 4 4 = 0#4 ∧
    s.errWord.getLsbD 8 = s.errMulti ∧ s.errWord.extractLsb' 9 23 = 0#23 := by
  unfold State.errWord
  generalize s.errMulti = a
  generalize s.code = c
  revert a c
  decide

/-- Settles O42: no check applies to a read of ERR. -/
theorem errRegisterRead : Obligations.ErrRegisterRead := by
  intro s
  obtain ⟨hcode, hrest⟩ := errWord_fields s
  refine ⟨s.errWord, transact_register_read 0x018#18 s (by decide) (by decide), hcode.trans ?_, hrest⟩
  unfold State.code
  rcases s.errCode with _ | _ | _ | _ | _ | _ <;> rfl

/-! ### CMD -/

/-- What any CMD write leaves in LASTCMD (R65, R350). -/
theorem lastCmd_cmd_write (s : State) (w : Word) : ∃ u, transact (cmdWrite w) s = .next u ∧
    u.lastCmd = if s.busy = false ∧ legalWord w s.sizeL.toNat = true then w else s.lastCmd := by
  obtain ⟨hbusy, hillegal, haccepted⟩ := commandIssueFollowsTheRule w s
  by_cases hb : s.busy = true
  · exact ⟨_, hbusy hb, by simp [hb]⟩
  rw [Bool.not_eq_true] at hb
  by_cases hl : legalWord w s.sizeL.toNat = true
  · obtain ⟨i, -, hx⟩ := haccepted hb hl
    exact ⟨_, hx, (if_pos ⟨hb, hl⟩).symm⟩
  · exact ⟨_, hillegal hb (by simpa using hl), by simp [hl]⟩

/-- Settles O45, by the three outcomes of a CMD write. -/
theorem commandRegister : Obligations.CommandRegister :=
  ⟨fun s w => ⟨transact_register_read 0x010#18 s (by decide) (by decide), lastCmd_cmd_write s w⟩, rfl⟩

/-! ### The enables of the interrupt -/

theorem irq_iff (s : State) :
    s.irq = true ↔ (s.done = true ∧ s.doneIe = true) ∨ (s.errCode ≠ none ∧ s.errIe = true) := by
  simp [State.irq, State.errf, Option.isSome_iff_ne_none]

/-- Settles O47: the write stores the enables alone, and `irq` is a level. -/
theorem enablesMaskTheInterrupt : Obligations.EnablesMaskTheInterrupt :=
  fun s w => ⟨writeCtrl w s, transact_writeAt_of_passed (firstError_ctrl_write w s) (by decide),
    irq_iff (writeCtrl w s), rfl, rfl⟩

end Sys2Proof.Machine
end

section
/-! PROOFS. What a busy block shows (R73, R107), the changes of DONE (R411) and the reset step (R450). -/

namespace Sys2Proof.Machine

/-! ### What a busy block shows -/

/-- The checks of R402 read no byte of the data RAM. -/
theorem firstError_data_irrel (t : Txn) (s : State) (m : Memory) : firstError t { s with data := m } = firstError t s :=
  rfl

theorem refuse_data_irrel (e : ErrCode) (t : Txn) (s : State) (m : Memory) :
    refuse e t { s with data := m } = { refuse e t s with data := m } := by
  unfold refuse raise
  cases t.op <;> cases s.errCode <;> rfl

/-- An access to a target outside the DATA window neither reads nor writes the data RAM (R103). -/
theorem access_data_irrel {t : Txn} (h : ∀ k p, target t.offset ≠ .data k p) (s : State) (m : Memory) :
    access t { s with data := m } = { access t s with data := m } := by
  unfold access
  cases ht : target t.offset with
  | data k p => exact absurd ht (h k p)
  | status =>
    cases t.op with
    | read => rfl
    | write w => simp only [writeTarget, writeStatus_eq]
  | _ => cases t.op <;> rfl

/-- Settles O51: while a command runs, the check of BUSY guards the DATA window, and nothing else reads the data RAM. -/
theorem busyBlockHidesItsData : Obligations.BusyBlockHidesItsData := by
  intro s m t hb
  rcases transact_by_checks t s with ⟨e, hf, hx⟩ | ⟨_, _, _, _, _, _, hidle, _⟩ | ⟨hn, hc, hx⟩
  · refine ⟨_, hx, ?_⟩
    rw [← refuse_data_irrel]
    exact transact_of_firstError hf
  · rw [hb] at hidle; cases hidle
  · obtain ⟨-, -, -, -, hguard, -⟩ := firstError_none hn
    have hdata : ∀ k p, target t.offset ≠ .data k p := fun k p ht => by
      simpa [busyGuarded, ht] using hguard hb
    refine ⟨_, hx, ?_⟩
    rw [← access_data_irrel hdata]
    exact transact_of_passed hn hc

/-! ### The changes of DONE -/

/-- Offset 0x014 alone names STATUS (R61). -/
theorem target_eq_status {off : BitVec 18} (h : target off = .status) : off = 0x014#18 := by
  rcases target_cases off with ⟨-, ht⟩ | ⟨-, -, ht⟩ | ⟨-, -, ht⟩ | ⟨-, ht⟩ <;> rw [h] at ht
  case inl =>
    unfold csrTarget at ht
    exact BitVec.eq_of_toNat_eq (by grind)
  all_goals cases ht

theorem done_writeTarget (w : Word) (s : State) (g : Target) : (writeTarget w s g).done = s.done ∨
    ((writeTarget w s g).done = false ∧ g = .status ∧ w.getLsbD 1 = true) := by
  cases g with
  | status =>
    rw [writeTarget, writeStatus_done]
    split
    case isTrue hw => exact .inr ⟨rfl, rfl, hw⟩
    case isFalse => exact .inl rfl
  | _ => exact .inl rfl

/-- A host transaction leaves DONE or clears it, by a STATUS write or by an accepted command (R411). -/
theorem done_transact {t : Txn} {s u : State} (h : transact t s = .next u) : u.done = s.done ∨
    (u.done = false ∧ ((∃ w, t = writeAt 0x014#18 w ∧ w.getLsbD 1 = true) ∨
      ∃ w, t = writeAt 0x010#18 w ∧ s.busy = false ∧ legalWord w s.sizeL.toNat = true)) := by
  rcases transact_by_checks t s with ⟨e, -, hx⟩ | ⟨w, i, rfl, -, hw, hi, hb, hx⟩ | ⟨hn, -, hx⟩ <;>
    obtain rfl := Host.Outcome.next.inj (hx.symm.trans h)
  · exact .inl (refuse_done s e t)
  · exact .inr ⟨rfl, .inr ⟨w, rfl, hb, by rw [encode_of_decode hw, legal_encode, hi]⟩⟩
  · obtain ⟨hsize, -⟩ := firstError_none hn
    obtain ⟨off, z, _ | w⟩ := t
    · exact .inl rfl
    · refine (done_writeTarget w s (target off)).imp_right fun ⟨hdone, htarget, hw⟩ => ⟨hdone, .inl ⟨w, ?_, hw⟩⟩
      rw [target_eq_status htarget, writeAt]
      exact congrArg (Txn.mk _ · _) hsize

/-- A turn of the engine leaves DONE or sets it with the last pass (R353). -/
theorem done_engineStep {s u : State} (h : engineStep s = .next u) : u.done = s.done ∨
    (u.done = true ∧ s.busy = true ∧ u.busy = false ∧ u.pass.toNat = u.seq.length ∧ u.seq = s.seq) := by
  rcases engineStep_cases h with ⟨-, rfl⟩ | ⟨hb, p, -, rfl⟩
  · exact .inl rfl
  · rw [countPass_done, countPass_busy, countPass_pass, countPass_seq, runPass_pass, runPass_seq]
    split
    case isTrue hlast => exact .inr ⟨rfl, hb, rfl, hlast, rfl⟩
    case isFalse => exact .inl rfl

/-- A step leaves DONE, sets it with the last pass, or clears it by one of its three clears (R411). -/
theorem done_step {s u : State} (h : step s = .next u) : u.done = s.done ∨
    (u.done = true ∧ s.busy = true ∧ u.busy = false ∧ u.pass.toNat = u.seq.length ∧ u.seq = s.seq) ∨
    (u.done = false ∧ ((∃ w, s.inputs.head? = some (.host (writeAt 0x014#18 w)) ∧ w.getLsbD 1 = true) ∨
      (∃ w, s.inputs.head? = some (.host (writeAt 0x010#18 w)) ∧ s.busy = false ∧
        legalWord w s.sizeL.toNat = true) ∨ s.inputs.head? = some .reset)) := by
  rcases step_cases s with ⟨t, rest, hin, hx⟩ | ⟨rest, -, hx⟩ | ⟨rest, hin, hx⟩
  · rw [hin]
    refine (done_transact (s := s.begin rest) (hx.symm.trans h)).imp_right fun ⟨hclear, hcause⟩ => .inr ⟨hclear, ?_⟩
    rcases hcause with ⟨w, rfl, hw⟩ | ⟨w, rfl, hidle, hlegal⟩
    · exact .inl ⟨w, rfl, hw⟩
    · exact .inr (.inl ⟨w, rfl, hidle, hlegal⟩)
  · exact (done_engineStep (s := s.begin rest) (hx.symm.trans h)).imp_right .inl
  · obtain rfl := Host.Outcome.next.inj (hx.symm.trans h)
    exact .inr (.inr ⟨rfl, .inr (.inr (by rw [hin]; rfl))⟩)

/-- Settles O48, from what a step does to DONE. -/
theorem doneChangesOnlyByRule : Obligations.DoneChangesOnlyByRule := by
  intro s u h
  rcases done_step h with hsame | ⟨hset, hrise⟩ | ⟨hclear, hfall⟩
  · rw [hsame]
    exact ⟨fun h0 h1 => absurd (h0.symm.trans h1) Bool.false_ne_true,
      fun h1 h0 => absurd (h0.symm.trans h1) Bool.false_ne_true⟩
  · exact ⟨fun _ _ => hrise, fun _ h0 => absurd (h0.symm.trans hset) Bool.false_ne_true⟩
  · exact ⟨fun _ h1 => absurd (hclear.symm.trans h1) Bool.false_ne_true, fun _ _ => hfall⟩

/-! ### The reset step -/

/-- Settles O52: the reset step writes every register, and lists no byte of the data RAM. -/
theorem resetStepSetsEveryRegister : Obligations.ResetStepSetsEveryRegister :=
  fun _ _ h => ⟨_, step_reset h, rfl, rfl, rfl, rfl, rfl, rfl, rfl, rfl, rfl, rfl, rfl, rfl, fun _ => rfl, rfl, rfl,
    (by decide : State.reset.statusWord = 0x00000000#32)⟩

end Sys2Proof.Machine
end
